-- ==== Sys2Proof/Word.lean ====
section
/-! DEFINITION. The one data width of the machine. -/

namespace Sys2Proof

/-- Memory cells, registers, operands, immediates and opcodes are all unsigned 8-bit values (R101, R200, R205).
Bit 0 is the least significant bit (R20). -/
abbrev Byte := BitVec 8

end Sys2Proof
end

