-- ==== Sys2Proof/Config.lean ====
section
/-! DEFINITION. The implementation parameters of R17 and R18: what is fixed for a machine and is not state (R100). -/

namespace Sys2Proof

/-- `MEM_SIZE` (R17): cells 0..255. -/
abbrev memSize : Nat := 256

/-- `NREGS` (R17): R0..R7. -/
abbrev numRegs : Nat := 8

/-- The configuration argument `Opcodes` of R18: four PAIRWISE DISTINCT bytes. The last field carries that condition, so an
assignment with two equal bytes cannot be built. Every rule is stated over this parameter (decision D1); the default
values stand in `Sys2Proof.Opcodes.default` (Decode.lean). -/
structure Opcodes where
  /-- `OPC_LDI` -/
  ldi : Byte
  /-- `OPC_PRN` -/
  prn : Byte
  /-- `OPC_MUL` -/
  mul : Byte
  /-- `OPC_HLT` -/
  hlt : Byte
  /-- R18: "four pairwise distinct 8-bit values" -/
  distinct : [ldi, prn, mul, hlt].Nodup
deriving DecidableEq, Repr

/-- The parameter `ARITH_OVERFLOW` (R17, R604, decision D2). -/
inductive ArithOverflow where
  /-- the default: the result modulo 2^8 -/
  | wrap
  /-- an exact result of 256 or more raises a fault of the model's own -/
  | fault
deriving DecidableEq, Repr

/-- The parameter `UNWRITTEN_READ` (R17, R111, decision D3). -/
inductive UnwrittenRead where
  /-- the default: a register that nothing has written reads as its reset value 0 -/
  | zero
  /-- a read of a register that no LDI or MUL has written raises a fault of the model's own -/
  | fault
deriving DecidableEq, Repr

/-- All the parameters of R17 that are not fixed by the source. -/
structure Config where
  opcodes : Opcodes
  arithOverflow : ArithOverflow
  unwrittenRead : UnwrittenRead
deriving DecidableEq, Repr

end Sys2Proof
end

