-- ==== Sys2Proof/Syntax.lean ====
section
/-! DEFINITION. The instruction set as syntax: one constructor per row of spec/opcode_table.json. -/

namespace Sys2Proof

/-- What the decoder answers for a known opcode byte (R305): which of the four instructions it is. -/
inductive Kind where
  | ldi
  | prn
  | mul
  | hlt
deriving DecidableEq, Repr

/-- An instruction with its operand bytes. Every operand is one whole byte (R304); a register index is NOT restricted to
0..7 here, because an index of 8 or more decodes and faults at execution (R104, R309). -/
inductive Instr where
  /-- LDI Ra, imm (R500): `a` the destination register index, `b` the immediate. -/
  | ldi (a b : Byte)
  /-- PRN Ra (R510): `a` the source register index. -/
  | prn (a : Byte)
  /-- MUL Ra, Rb (R620): `a` the source and destination register index, `b` the source register index. -/
  | mul (a b : Byte)
  /-- HLT (R700): `a` is fetched and ignored. -/
  | hlt (a : Byte)
  /-- The table's row "(unknown)" (R701): an opcode byte outside the table. R305 has the decoder answer NONE for it; the model
  carries the byte on as this constructor, so that the row has an arm and its effect a meaning (log entry 12). -/
  | unknown (op : Byte)
deriving DecidableEq, Repr

end Sys2Proof
end

