-- ==== Sys2Proof/WellFormed.lean ====
section
/-! DEFINITION. The checks on a term of `Instr`. -/

namespace Sys2Proof

/-- R307: a byte is an unknown opcode when it is none of the four. -/
def Opcodes.isUnknown (c : Opcodes) (op : Byte) : Bool :=
  op ≠ c.ldi && op ≠ c.prn && op ≠ c.mul && op ≠ c.hlt

/-- Well-formed under an opcode assignment: the term stands for bytes of its own row. Operand bytes have no illegal value
(R309), so only the opcode of the unknown row is checked (R307). -/
def Instr.wf (c : Opcodes) : Instr → Bool
  | .ldi _ _ => true
  | .prn _ => true
  | .mul _ _ => true
  | .hlt _ => true
  | .unknown op => c.isUnknown op

/-- The register indices of an instruction all name one of R0..R7 (R304: "legal when it is 0 to 7"). It is no part of `wf`:
the check is made at execution (R104). Together with the assembler's own refusals it says what can be assembled (R312). -/
def Instr.regsInRange : Instr → Bool
  | .ldi a _ => a.toNat < numRegs
  | .prn a => a.toNat < numRegs
  | .mul a b => a.toNat < numRegs && b.toNat < numRegs
  | .hlt _ => true
  | .unknown _ => true

end Sys2Proof
end

