-- ==== Sys2Proof/Decode.lean ====
section
/-! DEFINITION. The decoder (R300 to R311), total on any bytes, and after it the encoder, from the same formats. -/

namespace Sys2Proof

/-- The default opcode bytes of decision D1 and R306 (the LS-8 teaching machine's values; log entry 1, PRESUMED). -/
def Opcodes.default : Opcodes where
  ldi := 0x82
  prn := 0x47
  mul := 0xA2
  hlt := 0x01
  distinct := by decide

/-- The width of an instruction in bytes (R17, R301, R302, R306): F3 for LDI and MUL, F2 for PRN and HLT. -/
def Kind.width : Kind → Nat
  | .ldi => 3
  | .prn => 2
  | .mul => 3
  | .hlt => 2

/-- The opcode byte of a kind under an assignment (R306). -/
def Opcodes.byteOf (c : Opcodes) : Kind → Byte
  | .ldi => c.ldi
  | .prn => c.prn
  | .mul => c.mul
  | .hlt => c.hlt

/-- R305, arm by arm: a pure function of the opcode byte that answers the kind and the width, or nothing for an unknown
opcode (R307, R308). -/
def Opcodes.decodeOpcode (c : Opcodes) (op : Byte) : Option (Kind × Nat) :=
  if op = c.ldi then some (.ldi, 3)
  else if op = c.prn then some (.prn, 2)
  else if op = c.mul then some (.mul, 3)
  else if op = c.hlt then some (.hlt, 2)
  else none

/-- The instruction of a kind with the operand bytes fetched for it (R22, R304). A width-2 kind has no `operand_b`. -/
def Kind.instr : Kind → Byte → Byte → Instr
  | .ldi, a, b => .ldi a b
  | .prn, a, _ => .prn a
  | .mul, a, b => .mul a b
  | .hlt, a, _ => .hlt a

/-- The fetch and decode phases of R401, in its order, over any source of bytes: `fetch k` gives the byte at offset `k` from
the instruction's first byte, or says why there is none. The opcode is fetched and decoded first; an unknown opcode
fetches no operand (R308, R403); then `operand_a`, and `operand_b` for a width of 3 only (R404). -/
def decodeFrom {ε : Type} (c : Opcodes) (fetch : Nat → Except ε Byte) : Except ε Instr :=
  match fetch 0 with
  | .error e => .error e
  | .ok op =>
    match c.decodeOpcode op with
    | none => .ok (.unknown op)
    | some (kind, w) =>
      match fetch 1 with
      | .error e => .error e
      | .ok a =>
        if w = 3 then
          match fetch 2 with
          | .error e => .error e
          | .ok b => .ok (kind.instr a b)
        else .ok (kind.instr a 0)

/-- Why a list of bytes holds no whole instruction. -/
inductive DecodeError where
  /-- the byte at this offset of the instruction is needed and is not in the list -/
  | missingByte (offset : Nat)
deriving DecidableEq, Repr

/-- The byte of a list at an offset. -/
def fetchList (bytes : List Byte) (k : Nat) : Except DecodeError Byte :=
  match bytes[k]? with
  | some b => .ok b
  | none => .error (.missingByte k)

/-- How many bytes the decoder reads for an instruction: its width (R305), and the opcode byte alone for an unknown opcode,
which has no width (R308). -/
def Instr.length : Instr → Nat
  | .ldi _ _ => 3
  | .prn _ => 2
  | .mul _ _ => 3
  | .hlt _ => 2
  | .unknown _ => 1

/-- The decoder on a list of bytes: the first instruction and the bytes after it. -/
def decode (c : Opcodes) (bytes : List Byte) : Except DecodeError (Instr × List Byte) :=
  match decodeFrom c (fetchList bytes) with
  | .ok i => .ok (i, bytes.drop i.length)
  | .error e => .error e

/-- The bytes of an instruction at ascending addresses: opcode, `operand_a`, `operand_b` (R205, R301, R302, R313). -/
def encode (c : Opcodes) : Instr → List Byte
  | .ldi a b => [c.ldi, a, b]
  | .prn a => [c.prn, a]
  | .mul a b => [c.mul, a, b]
  | .hlt a => [c.hlt, a]
  | .unknown op => [op]

/-- The bytes of a table word: byte `k` is bits `8k+7` to `8k` of `w`, every bit from `nbits` on is 0, and there are as many
bytes as the longest instruction has (R300). -/
def tableBytes (nbits w : Nat) : List Byte :=
  let v := w % 2 ^ nbits
  [BitVec.ofNat 8 v, BitVec.ofNat 8 (v / 256), BitVec.ofNat 8 (v / 65536)]

/-- The instruction the decoder reads from a word of spec/opcode_table.json, under the default opcodes the table prints. -/
def decodeTableWord (nbits w : Nat) : Option Instr :=
  match decode Opcodes.default (tableBytes nbits w) with
  | .ok (i, _) => some i
  | .error _ => none

end Sys2Proof
end

