-- ==== Sys2Proof/Machine/State.lean ====
section
/-! DEFINITION. The state of the machine as plain data (R100), the reasons a step can stop, and reset (R111). -/

namespace Sys2Proof.Machine

/-- The run state (R106). -/
inductive Status where
  | running
  | halted
deriving DecidableEq, Repr

/-- The space of an out-of-bounds index (R107). -/
inductive Space where
  | memory
  | register
deriving DecidableEq, Repr

/-- The operation tag of the arithmetic unit, in the form R601 allows a Lean model; every `other n` is unsupported. -/
inductive Tag where
  | add
  | multiply
  | other (n : Nat)
deriving DecidableEq, Repr

/-- The kinds of run-time fault (R107, R800). -/
inductive FaultKind where
  | outOfBoundsAccess
  | unknownOpcode
  | unsupportedOperation
deriving DecidableEq, Repr

/-- The context a fault records (R107, R800). -/
inductive FaultInfo where
  /-- `OOB(space, index)` -/
  | oob (space : Space) (index : Nat)
  /-- `OPCODE(byte)` -/
  | opcode (byte : Byte)
  /-- `TAG(tag)` -/
  | tag (t : Tag)
deriving DecidableEq, Repr

/-- The fault report (R107). -/
structure FaultReport where
  kind : FaultKind
  /-- the address of the instruction whose step raised it -/
  pc : Nat
  info : FaultInfo
deriving DecidableEq, Repr

/-- Memory: (address, byte) pairs. Its canonical form is `Memory.wf` (Ops.lean): addresses strictly rising and below 256, no
entry that holds 0, which is what an unlisted address reads as (R200; log entry 9). -/
abbrev Memory := List Host.Cell

/-- The register file R0..R7 (R101). -/
abbrev RegFile := Vector Byte 8

/-- The state record of R100. Nothing else is state. -/
structure State where
  /-- the memory array (R200) -/
  mem : Memory
  /-- the general registers (R101) -/
  x : RegFile
  /-- the program counter, a natural number that never wraps (R105) -/
  pc : Nat
  /-- the run state (R106) -/
  status : Status
  /-- the fault report, `none` for NONE (R107) -/
  fault : Option FaultReport
  /-- the output log, oldest value first (R108) -/
  out : List Byte
deriving DecidableEq, Repr

/-- The faults OF THE MODEL'S OWN, which the spec gives only under the parameter values that are not the defaults. The
hardware's three run-time faults are not here: they are next states with a fault report (R802, log entry 8). `step`, which
runs the defaults, raises none of these. -/
inductive Fault where
  /-- Raised by the arithmetic unit under `ARITH_OVERFLOW = fault` when the exact result is 256 or more (R604). Safe: the model
  stops where the machine goes on. -/
  | arithOverflow (exact : Nat)
  /-- Raised by the machine of Policy.lean under `UNWRITTEN_READ = fault` when an instruction reads a register that no LDI or
  MUL has written (R111). Safe: the model stops where the machine goes on. -/
  | unwrittenRead (r : Fin 8)
deriving DecidableEq, Repr

/-- Why a step has no meaning. -/
inductive Refusal where
  /-- Raised by an arm of `exec` for an instruction without a meaning. No arm does so. Safe. -/
  | notModelled (mnemonic : String)
  /-- Raised by a step asked of an engine in HALTED: "No step is defined from `status = HALTED`" (R409). Safe. -/
  | halted
deriving DecidableEq, Repr

/-- The machine right after construction (R111, R900, R901): memory all 0, pc 0, RUNNING, no fault, no output. The registers'
value 0 is the spec's decision D3 (log entry 3, DESIGN CHOICE). -/
def State.reset : State where
  mem := []
  x := Vector.replicate 8 0
  pc := 0
  status := .running
  fault := none
  out := []

end Sys2Proof.Machine
end

