-- ==== Sys2Proof/Machine/Flags.lean ====
section
/-! DEFINITION. The machine has NO flags: no instruction sets or reads one and overflow is recorded nowhere (R109, R607).
What stands here is what would feed a flag elsewhere: the exact results of the arithmetic unit and their narrowing. -/

namespace Sys2Proof.Machine

/-- The exact unsigned sum, 0..510 (R605). -/
def exactSum (va vb : Byte) : Nat := va.toNat + vb.toNat

/-- The exact unsigned product, 0..65025 (R604). -/
def exactProduct (va vb : Byte) : Nat := va.toNat * vb.toNat

/-- The overflow parameter of the machine that `step` runs: `wrap`, the default of decision D2 (log entry 2). -/
def defaultOverflow : ArithOverflow := .wrap

/-- Narrow an exact result to a register (R102, R604, R605): the low 8 bits; under `ARITH_OVERFLOW = fault` an exact result of
256 or more is a fault of the model's own instead. -/
def narrow (ov : ArithOverflow) (exact : Nat) : Except Fault Byte :=
  match ov with
  | .wrap => .ok (BitVec.ofNat 8 exact)
  | .fault => if exact < 256 then .ok (BitVec.ofNat 8 exact) else .error (.arithOverflow exact)

end Sys2Proof.Machine
end

