-- ==== Sys2Proof/Machine/Operands.lean ====
section
/-! DEFINITION. The operand forms (R304): a whole byte used as it is (LDI's immediate, HLT's ignored operand), or a whole byte
used as a register index, which is checked here. -/

namespace Sys2Proof.Machine

/-- R104: an index below 8 selects that register; any other byte selects none and is reported whole, never masked to 3 bits,
wrapped or clamped. -/
def regOperand (i : Byte) : Except FaultInfo (Fin 8) :=
  if h : i.toNat < numRegs then .ok ⟨i.toNat, h⟩ else .error (.oob .register i.toNat)

end Sys2Proof.Machine
end

