-- ==== Sys2Proof/Machine/Ops.lean ====
section
/-! DEFINITION. The named operations over memory, registers, the pc, the output log and the fault report (R21). Raising a fault
is this machine's taking of an exception; there is no return from one (R803, R808). -/

namespace Sys2Proof.Machine

/-- What a memory cell holds: its listed byte, and 0 where the list has no entry (R200: the reset value of every cell). -/
def cellAt : Memory → Nat → Byte
  | [], _ => 0#8
  | (k, v) :: rest, a => if k = a then v else cellAt rest a

/-- `MemRead(addr, 1)` (R202, R203): the cell at an address below 256; any other address raises, without wrap or clamp. -/
def memRead (m : Memory) (addr : Nat) : Except FaultInfo Byte :=
  if addr < memSize then .ok (cellAt m addr) else .error (.oob .memory addr)

/-- Put a byte into a cell, keeping the canonical form: entries stay in rising order, and a 0 leaves no entry. -/
def putCell : Memory → Nat → Byte → Memory
  | [], a, v => if v = 0#8 then [] else [(a, v)]
  | (k, w) :: rest, a, v =>
    if a < k then (if v = 0#8 then (k, w) :: rest else (a, v) :: (k, w) :: rest)
    else if a = k then (if v = 0#8 then rest else (a, v) :: rest)
    else (k, w) :: putCell rest a v

/-- Every entry of the list has an address from `lo` on, addresses rise strictly and stay below 256, and no entry holds 0. -/
def cellsFrom : Nat → Memory → Bool
  | _, [] => true
  | lo, (k, v) :: rest => decide (lo ≤ k) && decide (k < memSize) && decide (v ≠ 0#8) && cellsFrom (k + 1) rest

/-- The canonical form of memory: equal memories are equal lists. -/
def Memory.wf (m : Memory) : Bool := cellsFrom 0 m

/-- Put bytes into consecutive cells from an address on; a byte that would lie at 256 or above is not put anywhere. -/
def putBytes (m : Memory) (addr : Nat) : List Byte → Memory
  | [] => m
  | v :: rest => putBytes (if addr < memSize then putCell m addr v else m) (addr + 1) rest

/-- Read register `r` (R21: the index is checked before, by `regOperand`). -/
def getReg (x : RegFile) (r : Fin 8) : Byte := x[r]

/-- Write register `r`; no register is hard-wired (R101). -/
def setReg (x : RegFile) (r : Fin 8) (v : Byte) : RegFile := x.set r v

/-- The kind of the fault that a context belongs to (R107, R800). -/
def faultKindOf : FaultInfo → FaultKind
  | .oob _ _ => .outOfBoundsAccess
  | .opcode _ => .unknownOpcode
  | .tag _ => .unsupportedOperation

/-- R802: what a fault writes, and all it writes: the report, with the pc of the instruction (which the pc still holds, R405),
and HALTED. Registers, pc, memory and output keep their values. -/
def takeFault (info : FaultInfo) (s : State) : State :=
  { s with fault := some ⟨faultKindOf info, s.pc, info⟩, status := .halted }

/-- `raise E(info)` (R21): the step ends in the state of R802. -/
def raise (info : FaultInfo) (s : State) : Host.Outcome State Fault Refusal :=
  .next (takeFault info s)

/-- `emit(v)` (R21, R108): append one value to the output log. -/
def emit (v : Byte) (s : State) : State := { s with out := s.out ++ [v] }

/-- `pc <- p + w` of a completed instruction (R406): exact, without wrap. -/
def advance (w : Nat) (s : State) : State := { s with pc := s.pc + w }

/-- `x[r] <- v` on the whole state. -/
def writeReg (r : Fin 8) (v : Byte) (s : State) : State := { s with x := setReg s.x r v }

/-- `status <- HALTED` (R700), the fault report left as it is. -/
def halt (s : State) : State := { s with status := .halted }

end Sys2Proof.Machine
end

