-- ==== Sys2Proof/Machine/Arith.lean ====
section
/-! DEFINITION. The arithmetic unit (R600 to R607) and MUL, the only instruction that reaches it (R620, R621). -/

namespace Sys2Proof.Machine

/-- The tag of a 2-bit hardware select (R601): 0 is ADD, 1 is MULTIPLY, 2 and 3 are unsupported. -/
def tagOfCode (n : BitVec 2) : Tag :=
  if n = 0 then .add else if n = 1 then .multiply else .other n.toNat

/-- The code of a tag (R601). -/
def tagCode : Tag → Nat
  | .add => 0
  | .multiply => 1
  | .other n => n

/-- Why the arithmetic unit gives no register file. -/
inductive AluStop where
  /-- the unit raises a run-time fault (R602) -/
  | raised (info : FaultInfo)
  /-- the model's own stop under `ARITH_OVERFLOW = fault` (R604) -/
  | model (f : Fault)
deriving DecidableEq, Repr

/-- The exact result a tag computes, or nothing for an unsupported tag (R601, R604 to R606). -/
def exactResult (tag : Tag) (va vb : Byte) : Option Nat :=
  match tag with
  | .add => some (exactSum va vb)
  | .multiply => some (exactProduct va vb)
  | .other _ => none

/-- `ALU(tag, a, b)` (R602), a function of the register file alone (R600). It checks index a, then index b, reads both
registers, then checks the tag (R804, decision D6), and writes the narrowed result into register a. -/
def alu (ov : ArithOverflow) (tag : Tag) (a b : Byte) (x : RegFile) : Except AluStop RegFile :=
  match regOperand a with
  | .error info => .error (.raised info)
  | .ok ra =>
    match regOperand b with
    | .error info => .error (.raised info)
    | .ok rb =>
      match exactResult tag (getReg x ra) (getReg x rb) with
      | none => .error (.raised (.tag tag))
      | some exact =>
        match narrow ov exact with
        | .error f => .error (.model f)
        | .ok r => .ok (setReg x ra r)

/-- An instruction of width 3 whose effect is one operation of the arithmetic unit: the unit's fault is the step's fault, its
register file is the new one, and the pc is written last (R405, R620). -/
def execAlu (ov : ArithOverflow) (tag : Tag) (a b : Byte) (s : State) : Host.Outcome State Fault Refusal :=
  match alu ov tag a b s.x with
  | .error (.raised info) => raise info s
  | .error (.model f) => .fault f
  | .ok x => .next (advance 3 { s with x := x })

/-- MUL Ra, Rb (R620): `ALU(MULTIPLY, a, b)`, then `pc <- p + 3`. -/
def execMul (a b : Byte) (s : State) : Host.Outcome State Fault Refusal :=
  execAlu defaultOverflow .multiply a b s

end Sys2Proof.Machine
end

