-- ==== Sys2Proof/Machine/System.lean ====
section
/-! DEFINITION. HALT and the unknown opcode (R700 to R702). -/

namespace Sys2Proof.Machine

/-- HLT (R700): HALTED, the pc not advanced, the fetched operand ignored. -/
def execHlt (_a : Byte) (s : State) : Host.Outcome State Fault Refusal :=
  .next (halt s)

/-- The dispatcher's "anything else" (R403, R701): `raise UnknownOpcode(OPCODE(op))`. -/
def execUnknown (op : Byte) (s : State) : Host.Outcome State Fault Refusal :=
  raise (.opcode op) s

end Sys2Proof.Machine
end

