-- ==== Sys2Proof/Machine/Transfer.lean ====
section
/-! DEFINITION. The register transfer instructions (R500 to R511). -/

namespace Sys2Proof.Machine

/-- LDI Ra, imm (R500). -/
def execLdi (a b : Byte) (s : State) : Host.Outcome State Fault Refusal :=
  match regOperand a with
  | .error info => raise info s
  | .ok ra => .next (advance 3 (writeReg ra b s))

/-- PRN Ra (R510). -/
def execPrn (a : Byte) (s : State) : Host.Outcome State Fault Refusal :=
  match regOperand a with
  | .error info => raise info s
  | .ok ra => .next (advance 2 (emit (getReg s.x ra) s))

end Sys2Proof.Machine
end

