-- ==== Sys2Proof/Machine/Cycle.lean ====
section
/-! DEFINITION. The fetch-decode-execute step of R401 over the parameter `Opcodes`, and the loop of R400. -/

namespace Sys2Proof.Machine

/-- Fetch and decode the instruction at `p` (R402 to R404): each byte by `MemRead`, in the order of R401, so the first read at
or above 256 is the one reported (R804). -/
def fetchInstr (c : Opcodes) (m : Memory) (p : Nat) : Except FaultInfo Instr :=
  decodeFrom c (fun k => memRead m (p + k))

/-- The bytes of memory from `p` on that an instruction there could take: at most three, fewer at the end of memory. -/
def bytesFrom (m : Memory) (p : Nat) : List Byte :=
  ((List.range 3).filter (fun k => p + k < memSize)).map (fun k => cellAt m (p + k))

/-- `Step()` (R401): fetch, decode, dispatch. The pc holds the instruction's own address throughout (R405). No step is defined
from HALTED (R409). -/
def stepWith (c : Opcodes) (s : State) : Host.Outcome State Fault Refusal :=
  match s.status with
  | .halted => .refused .halted
  | .running =>
    match fetchInstr c s.mem s.pc with
    | .error info => raise info s
    | .ok i => exec i s

/-- The loop of R400, at most `n` steps of it: steps while RUNNING. -/
def runFor (c : Opcodes) : Nat → State → State
  | 0, s => s
  | n + 1, s =>
    match stepWith c s with
    | .next s' => runFor c n s'
    | .fault _ => s
    | .refused _ => s

/-- `run()` (R400): R412 bounds every run by 129 steps, so the loop needs no more (log entry 22). -/
def run (c : Opcodes) (s : State) : State := runFor c 129 s

end Sys2Proof.Machine
end

