-- ==== Sys2Proof/Machine/Step.lean ====
section
/-! DEFINITION. The step of the machine under the default opcodes, and the placing of one instruction where it fetches. -/

namespace Sys2Proof.Machine

/-- R401 under the default opcodes of decision D1. -/
def step (s : State) : Host.Outcome State Fault Refusal :=
  Sys2Proof.Machine.stepWith Sys2Proof.Opcodes.default s

/-- The state with a table word's bytes stored from the pc on, where the next step fetches (R402, R404). It stands for the
load of a program from outside (log entry 10); nothing but memory changes. -/
def State.withFetchWord (s : State) (nbits w : Nat) : State :=
  { s with mem := Sys2Proof.Machine.putBytes s.mem s.pc (Sys2Proof.tableBytes nbits w) }

end Sys2Proof.Machine
end

