-- ==== Sys2Proof/Machine/Loader.lean ====
section
/-! DEFINITION. The image loader's interface: what it hands the core and when it fails (R204, R905 to R909). -/

namespace Sys2Proof.Machine

/-- Why the loader hands over no image. -/
inductive LoadStop where
  /-- a byte for an address of 256 or above: an image of more than 256 bytes (R204, R907) -/
  | addressOutOfRange (addr : Nat)
  /-- a token that is no binary literal of at most 8 significant bits (R908) -/
  | malformedLiteral (line : Nat)
  /-- a source that cannot be located or opened (R908) -/
  | cannotOpen
  /-- a value of 256 or above given to a memory write: refused, not truncated (R204, decision D20) -/
  | valueTooWide (v : Nat)
deriving DecidableEq, Repr

/-- Which of these the spec calls ImageLoadFailure; the refusal of D20 is the model's validation, which no loader input
reaches (R204, R807). -/
def LoadStop.isImageLoadFailure : LoadStop → Bool
  | .addressOutOfRange _ => true
  | .malformedLiteral _ => true
  | .cannotOpen => true
  | .valueTooWide _ => false

/-- `MemWrite(addr, 1, v)` (R204): validated, never truncated and never wrapped. Only the loader calls it. -/
def memWrite (m : Memory) (addr v : Nat) : Except LoadStop Memory :=
  if addr < memSize then
    if v < 256 then .ok (putCell m addr (BitVec.ofNat 8 v)) else .error (.valueTooWide v)
  else .error (.addressOutOfRange addr)

/-- The loop of R906 from address `addr` on. -/
def loadCells (m : Memory) (addr : Nat) : List Byte → Except LoadStop Memory
  | [] => .ok m
  | v :: rest =>
    match memWrite m addr v.toNat with
    | .error e => .error e
    | .ok m' => loadCells m' (addr + 1) rest

/-- `load_image(img)` on the engine's state (R905 to R907): the whole image from address 0, or a failure; nothing but memory
changes. -/
def loadState (img : List Byte) (s : State) : Except LoadStop State :=
  match loadCells s.mem 0 img with
  | .error e => .error e
  | .ok m => .ok { s with mem := m }

/-- The comment marker of R908 (decision D17). -/
def commentMarker : Char := '#'

/-- White space in loader text (R908, R312); the spec does not list the characters (log entry 16). -/
def isBlank (ch : Char) : Bool := ch.isWhitespace

/-- A line without its comment and without the white space before what remains (R908). -/
def lineBody (line : List Char) : List Char :=
  (line.takeWhile (fun ch => ch ≠ commentMarker)).dropWhile isBlank

/-- The leading token of a line: up to the first white space (R908). Empty exactly on a blank or comment-only line. -/
def lineToken (line : List Char) : List Char :=
  (lineBody line).takeWhile (fun ch => !isBlank ch)

/-- The value in base 2 of a string of `0` and `1`, most significant digit first; nothing for any other character. -/
def binaryValue (token : List Char) : Option Nat :=
  token.foldl
    (fun acc ch =>
      match acc with
      | none => none
      | some v => if ch = '0' then some (2 * v) else if ch = '1' then some (2 * v + 1) else none)
    (some 0)

/-- One line (R908), numbered for the failure's context: a skipped line gives no byte. -/
def parseLine (n : Nat) (line : List Char) : Except LoadStop (Option Byte) :=
  match lineToken line with
  | [] => .ok none
  | ch :: rest =>
    match binaryValue (ch :: rest) with
    | none => .error (.malformedLiteral n)
    | some v => if v < 256 then .ok (some (BitVec.ofNat 8 v)) else .error (.malformedLiteral n)

/-- The lines from number `n` on: the image bytes in order (R908). -/
def parseLines (n : Nat) : List (List Char) → Except LoadStop (List Byte)
  | [] => .ok []
  | line :: rest =>
    match parseLine n line with
    | .error e => .error e
    | .ok none => parseLines (n + 1) rest
    | .ok (some v) =>
      match parseLines (n + 1) rest with
      | .error e => .error e
      | .ok img => .ok (v :: img)

/-- The loader's input (R908): the lines of a source, or `none` where it cannot be located or opened. -/
def loadText (source : Option (List (List Char))) : Except LoadStop (List Byte) :=
  match source with
  | none => .error .cannotOpen
  | some lines => parseLines 0 lines

/-- The binary digits of a byte, most significant first. -/
def byteDigits (v : Byte) : List Char :=
  (List.range 8).reverse.map (fun k => if v.getLsbD k then '1' else '0')

/-- A listing (R314): one binary literal a line, which may carry text after a comment marker. -/
def listingLine (v : Byte) (comment : List Char) : List Char :=
  byteDigits v ++ [' ', commentMarker, ' '] ++ comment

end Sys2Proof.Machine
end

