-- ==== Sys2Proof/Machine/Output.lean ====
section
/-! DEFINITION. The output channel as the host sees it (R108, R114, R115). -/

namespace Sys2Proof.Machine

/-- The decimal digit of a number below 10. -/
def decimalDigit (n : Nat) : Char := Char.ofNat (48 + n)

/-- The decimal digits of a byte, no sign and no leading zero; 0 is the one digit `0` (R115, R511). -/
def decimalDigits (v : Byte) : List Char :=
  let n := v.toNat
  if n < 10 then [decimalDigit n]
  else if n < 100 then [decimalDigit (n / 10), decimalDigit (n % 10)]
  else [decimalDigit (n / 100), decimalDigit (n / 10 % 10), decimalDigit (n % 10)]

/-- One output event as its line of text: the digits and one line feed, 0x0A (R115, decision D8). -/
def renderValue (v : Byte) : List Char := decimalDigits v ++ ['\n']

/-- The output log as text. -/
def renderLog : List Byte → List Char
  | [] => []
  | v :: rest => renderValue v ++ renderLog rest

/-- The output events of a step (R114): the values it appended to the log. -/
def outputEvents (before after : State) : List Byte := after.out.drop before.out.length

end Sys2Proof.Machine
end

