-- ==== Sys2Proof/Machine/Assembler.lean ====
section
/-! DEFINITION. The assembler syntax of R312 and its encodings (R313). There are no pseudo-instructions (R313). -/

namespace Sys2Proof.Machine

/-- Text without the white space at its two ends. -/
def strip (text : List Char) : List Char :=
  ((text.dropWhile isBlank).reverse.dropWhile isBlank).reverse

/-- A register name `R0` to `R7`; any other name is refused (R312). -/
def parseReg (text : List Char) : Option Byte :=
  match text with
  | ['R', d] => if '0' ≤ d ∧ d ≤ '7' then some (BitVec.ofNat 8 (d.toNat - 48)) else none
  | _ => none

/-- The value in base 10 of a string of decimal digits. -/
def decimalValue (text : List Char) : Option Nat :=
  text.foldl
    (fun acc ch =>
      match acc with
      | none => none
      | some v => if '0' ≤ ch ∧ ch ≤ '9' then some (10 * v + (ch.toNat - 48)) else none)
    (some 0)

/-- An immediate (R312): `0b` and up to eight binary digits, or decimal digits; refused outside 0..255. R312 leaves two points
open. DESIGN CHOICE: `0b` with no digit after it is refused, where R312 gives no least number of digits; and decimal digits may
begin with any number of zeros (log entry 18). -/
def parseImm (text : List Char) : Option Byte :=
  match text with
  | '0' :: 'b' :: digits =>
    if digits.length = 0 ∨ 8 < digits.length then none
    else
      match binaryValue digits with
      | some v => some (BitVec.ofNat 8 v)
      | none => none
  | [] => none
  | ch :: rest =>
    match decimalValue (ch :: rest) with
    | some v => if v < 256 then some (BitVec.ofNat 8 v) else none
    | none => none

/-- The mnemonic of a name, short or long (R312). -/
def parseMnemonic (name : List Char) : Option Kind :=
  if name = "LDI".toList ∨ name = "LOAD-IMMEDIATE".toList then some .ldi
  else if name = "PRN".toList ∨ name = "PRINT-REGISTER".toList then some .prn
  else if name = "MUL".toList ∨ name = "MULTIPLY".toList then some .mul
  else if name = "HLT".toList ∨ name = "HALT".toList then some .hlt
  else none

/-- The two operands at the two sides of the first comma. -/
def splitComma (text : List Char) : Option (List Char × List Char) :=
  match text.dropWhile (fun ch => ch ≠ ',') with
  | [] => none
  | _ :: rest => some (strip (text.takeWhile (fun ch => ch ≠ ',')), strip rest)

/-- One line of assembly (R312): a mnemonic, white space, operands. HLT takes none and its `operand_a` is assembled as 0. -/
def parseAsm (line : List Char) : Option Instr :=
  let body := strip line
  let rest := strip (body.dropWhile (fun ch => !isBlank ch))
  match parseMnemonic (body.takeWhile (fun ch => !isBlank ch)) with
  | none => none
  | some .hlt => if rest = [] then some (.hlt 0) else none
  | some .prn =>
    match parseReg rest with
    | some a => some (.prn a)
    | none => none
  | some .ldi =>
    match splitComma rest with
    | none => none
    | some (l, r) =>
      match parseReg l, parseImm r with
      | some a, some v => some (.ldi a v)
      | _, _ => none
  | some .mul =>
    match splitComma rest with
    | none => none
    | some (l, r) =>
      match parseReg l, parseReg r with
      | some a, some b => some (.mul a b)
      | _, _ => none

/-- The bytes a line assembles to (R313). -/
def assembleLine (c : Opcodes) (line : List Char) : Option (List Byte) :=
  match parseAsm line with
  | some i => some (encode c i)
  | none => none

/-- A program, line by line; one refused line refuses it whole. DESIGN CHOICE: a blank line holds no instruction and is refused like
any other line without one; R312 does not speak of blank lines (log entry 18). -/
def assemble (c : Opcodes) : List (List Char) → Option (List Byte)
  | [] => some []
  | line :: rest =>
    match assembleLine c line, assemble c rest with
    | some bs, some more => some (bs ++ more)
    | _, _ => none

/-- A register name in assembly. -/
def regName (a : Byte) : List Char := ['R', decimalDigit a.toNat]

/-- The assembly of an instruction in the syntax of R312; nothing for what can only be written as raw bytes (R312): an index
outside R0..R7, an unknown opcode, or an HLT whose operand byte is not 0. -/
def asmText (i : Instr) : Option (List Char) :=
  if i.regsInRange then
    match i with
    | .ldi a b => some ("LDI ".toList ++ regName a ++ ", ".toList ++ decimalDigits b)
    | .prn a => some ("PRN ".toList ++ regName a)
    | .mul a b => some ("MUL ".toList ++ regName a ++ ", ".toList ++ regName b)
    | .hlt a => if a = 0 then some "HLT".toList else none
    | .unknown _ => none
  else none

end Sys2Proof.Machine
end

