-- ==== Sys2Proof/Machine/Interface.lean ====
section
/-! DEFINITION. The block's external interface: the operations of R113 and R114 in the order of R902, and the pins of R116. -/

namespace Sys2Proof.Machine

/-- Where a session of the interface stands. It belongs to the interface, not to the machine's state (R100). -/
inductive Phase where
  /-- `construct()` has been called, no image is loaded -/
  | constructed
  /-- `load_image` has completed, no step is taken -/
  | loaded
  /-- ImageLoadFailure: the engine never takes a step (R909) -/
  | failed
  /-- `run()` has returned -/
  | finished
deriving DecidableEq, Repr

/-- An engine behind its interface. -/
structure Engine where
  st : State
  phase : Phase
deriving DecidableEq, Repr

/-- Why an operation of the interface is refused. -/
inductive InterfaceStop where
  /-- the load failed (R905, R907) -/
  | load (why : LoadStop)
  /-- `load_image` where R114 does not allow it -/
  | loadNotAllowed
  /-- `run()` where R114 does not allow it -/
  | runNotAllowed
  /-- `observe` before `run()` has returned (R114) or after a failed load (R909) -/
  | observeNotAllowed
  /-- `load_we` and `start` in one transaction, which R116 does not speak of (log entry 19) -/
  | pinsConflict
deriving DecidableEq, Repr

/-- `construct()` (R114, R900). -/
def construct : Engine := ⟨State.reset, .constructed⟩

/-- `load_image(img)` (R114, R905): once, on a constructed engine that has taken no step. A failed load loads nothing and
leaves an engine that never runs (R909). -/
def loadImage (img : List Byte) (e : Engine) : Engine × Option InterfaceStop :=
  match e.phase with
  | .constructed =>
    match loadState img e.st with
    | .ok s => (⟨s, .loaded⟩, none)
    | .error why => (⟨e.st, .failed⟩, some (.load why))
  | .loaded => (e, some .loadNotAllowed)
  | .failed => (e, some .loadNotAllowed)
  | .finished => (e, some .loadNotAllowed)

/-- The text loader in front of `load_image` (R807, R908): a text that gives no image fails the load as well. -/
def loadSource (source : Option (List (List Char))) (e : Engine) : Engine × Option InterfaceStop :=
  match e.phase with
  | .constructed =>
    match loadText source with
    | .ok img => loadImage img e
    | .error why => (⟨e.st, .failed⟩, some (.load why))
  | .loaded => (e, some .loadNotAllowed)
  | .failed => (e, some .loadNotAllowed)
  | .finished => (e, some .loadNotAllowed)

/-- `run()` (R114, R400): only after a successful load, and once. -/
def runEngine (c : Opcodes) (e : Engine) : Engine × Option InterfaceStop :=
  match e.phase with
  | .loaded => (⟨run c e.st, .finished⟩, none)
  | .constructed => (e, some .runNotAllowed)
  | .failed => (e, some .runNotAllowed)
  | .finished => (e, some .runNotAllowed)

/-- `observe` (R114, R411): the final state, after `run()` has returned. -/
def observe (e : Engine) : Except InterfaceStop State :=
  match e.phase with
  | .finished => .ok e.st
  | .constructed => .error .observeNotAllowed
  | .loaded => .error .observeNotAllowed
  | .failed => .error .observeNotAllowed

/-- The input pins of R116 in one transaction. -/
structure PinsIn where
  loadWe : Bool
  loadAddr : BitVec 8
  loadData : BitVec 8
  start : Bool
deriving DecidableEq, Repr

/-- The output pins of R116. A pin whose value R116 does not state in a situation is `none` there (log entry 19). -/
structure PinsOut where
  outValid : Bool
  outData : Option (BitVec 8)
  halted : Bool
  faultValid : Bool
  faultKind : Option (BitVec 2)
  faultPc : Option (BitVec 9)
  faultSpace : Option (BitVec 1)
  faultInfo : Option (BitVec 9)
deriving DecidableEq, Repr

/-- The code of a fault kind on `fault_kind` (R116, R800). -/
def faultKindCode : FaultKind → BitVec 2
  | .outOfBoundsAccess => 1
  | .unknownOpcode => 2
  | .unsupportedOperation => 3

/-- The code of a space on `fault_space` (R116). -/
def spaceCode : Space → BitVec 1
  | .memory => 0
  | .register => 1

/-- `fault_space`: stated for an out-of-bounds access only (R116). -/
def faultSpacePin : FaultInfo → Option (BitVec 1)
  | .oob sp _ => some (spaceCode sp)
  | .opcode _ => none
  | .tag _ => none

/-- `fault_info`: the index, the opcode or the tag code (R116, R601). -/
def faultInfoPin : FaultInfo → BitVec 9
  | .oob _ index => BitVec.ofNat 9 index
  | .opcode b => b.setWidth 9
  | .tag .add => 0
  | .tag .multiply => 1
  | .tag (.other n) => BitVec.ofNat 9 n

/-- The output pins over one step (R116): the output pulse belongs to the step, the rest shows the state after it. -/
def pinsOut (before after : State) : PinsOut where
  outValid := !(outputEvents before after).isEmpty
  outData := (outputEvents before after).head?
  halted := after.status = .halted
  faultValid := after.fault.isSome
  faultKind := after.fault.map (fun f => faultKindCode f.kind)
  faultPc := after.fault.map (fun f => BitVec.ofNat 9 f.pc)
  faultSpace := after.fault.bind (fun f => faultSpacePin f.info)
  faultInfo := after.fault.map (fun f => faultInfoPin f.info)

/-- The input pins (R116): `load_we` writes one byte and is legal only before `start`; `start` begins `run()`. A start with no
byte written is the run of the empty image (log entry 19). -/
def applyPins (c : Opcodes) (p : PinsIn) (e : Engine) : Engine × Option InterfaceStop :=
  match p.loadWe, p.start with
  | false, false => (e, none)
  | true, true => (e, some .pinsConflict)
  | true, false =>
    if e.phase = .constructed ∨ e.phase = .loaded then
      (⟨{ e.st with mem := putCell e.st.mem p.loadAddr.toNat p.loadData }, .loaded⟩, none)
    else (e, some .loadNotAllowed)
  | false, true =>
    if e.phase = .constructed ∨ e.phase = .loaded then (⟨run c e.st, .finished⟩, none)
    else (e, some .runNotAllowed)

end Sys2Proof.Machine
end

