-- ==== Sys2Proof/Machine/Policy.lean ====
section
/-! DEFINITION. The machine under the optional values of `ARITH_OVERFLOW` and `UNWRITTEN_READ` (R17, R111, R604). It is a second
machine around the first: which registers have been written is its own record, not architectural state (R100). -/

namespace Sys2Proof.Machine

/-- The defaults of R17: the configuration that `step` runs. -/
def defaultConfig : Config where
  opcodes := Opcodes.default
  arithOverflow := .wrap
  unwrittenRead := .zero

/-- `exec` under a value of `ARITH_OVERFLOW`; only MUL reaches the arithmetic unit (R621). -/
def execUnder (ov : ArithOverflow) (i : Instr) (s : State) : Host.Outcome State Fault Refusal :=
  match i with
  | .mul a b => execAlu ov .multiply a b s
  | .ldi a b => exec (.ldi a b) s
  | .prn a => exec (.prn a) s
  | .hlt a => exec (.hlt a) s
  | .unknown op => exec (.unknown op) s

/-- The register operands an instruction reads, in the order in which it reads them (R103, R602). -/
def regsRead : Instr → List Byte
  | .ldi _ _ => []
  | .prn a => [a]
  | .mul a b => [a, b]
  | .hlt _ => []
  | .unknown _ => []

/-- The register operand an instruction writes (R103). -/
def regsWritten : Instr → List Byte
  | .ldi a _ => [a]
  | .prn _ => []
  | .mul a _ => [a]
  | .hlt _ => []
  | .unknown _ => []

/-- The machine's state and, for each register, whether an LDI or MUL has written it. -/
structure Tracked where
  st : State
  written : Vector Bool 8
deriving DecidableEq, Repr

/-- Reset: nothing is written. -/
def trackedReset : Tracked := ⟨State.reset, Vector.replicate 8 false⟩

/-- The first register operand that nothing has written. An index of 8 or more reads no register (R104). -/
def firstUnwritten (written : Vector Bool 8) : List Byte → Option (Fin 8)
  | [] => none
  | i :: rest =>
    match regOperand i with
    | .error _ => firstUnwritten written rest
    | .ok r => if written[r] then firstUnwritten written rest else some r

/-- Record the registers an instruction has written. -/
def markWritten (written : Vector Bool 8) : List Byte → Vector Bool 8
  | [] => written
  | i :: rest =>
    match regOperand i with
    | .error _ => markWritten written rest
    | .ok r => markWritten (written.set r true) rest

/-- The register whose read `UNWRITTEN_READ = fault` stops at. The index checks come before any read (R602), so an instruction
with an index out of range reads nothing. -/
def unwrittenStop (u : UnwrittenRead) (written : Vector Bool 8) (i : Instr) : Option (Fin 8) :=
  match u with
  | .zero => none
  | .fault => if i.regsInRange then firstUnwritten written (regsRead i) else none

/-- One instruction under both parameters. -/
def execTracked (cfg : Config) (i : Instr) (t : Tracked) : Host.Outcome Tracked Fault Refusal :=
  match unwrittenStop cfg.unwrittenRead t.written i with
  | some r => .fault (.unwrittenRead r)
  | none =>
    match execUnder cfg.arithOverflow i t.st with
    | .next s => .next ⟨s, if i.regsInRange then markWritten t.written (regsWritten i) else t.written⟩
    | .fault f => .fault f
    | .refused r => .refused r

/-- The step of R401 under a configuration. -/
def stepUnder (cfg : Config) (t : Tracked) : Host.Outcome Tracked Fault Refusal :=
  match t.st.status with
  | .halted => .refused .halted
  | .running =>
    match fetchInstr cfg.opcodes t.st.mem t.st.pc with
    | .error info => .next { t with st := takeFault info t.st }
    | .ok i => execTracked cfg i t

end Sys2Proof.Machine
end

