-- ==== Sys2Proof/Safety.lean ====
section
/-! DEFINITION. What the claims call a legal state, a clean end and the failed check of a step. -/

namespace Sys2Proof

open Sys2Proof.Machine

/-- The context of a fault that a step can report (R801): a memory index of 256, a register index of 8 to 255, or an opcode
outside the table. The tag context is reached by no instruction (R621). -/
def legalInfo (c : Opcodes) : FaultInfo → Bool
  | .oob .memory index => index = memSize
  | .oob .register index => decide (numRegs ≤ index) && decide (index < 256)
  | .opcode b => c.isUnknown b
  | .tag _ => false

/-- The states that a run passes through all have these properties: memory is canonical (R200), the pc is 0..256 (R105), a
running engine has no fault report (R107, R802), and a report is about the instruction at the pc, where a fault leaves it
(R406), with the kind its context belongs to (R107, R800). -/
structure LegalState (c : Opcodes) (s : State) : Prop where
  mem_wf : s.mem.wf = true
  pc_le : s.pc ≤ memSize
  running_no_fault : s.status = .running → s.fault = none
  report_ok : ∀ f, s.fault = some f → f.pc = s.pc ∧ f.kind = faultKindOf f.info ∧ legalInfo c f.info = true

/-- A clean end (R411, R903): HALTED without a fault report. -/
def CleanEnd (s : State) : Prop := s.status = .halted ∧ s.fault = none

/-- An end by a fault (R411). -/
def FaultEnd (s : State) : Prop := s.status = .halted ∧ s.fault ≠ none

/-- Whether an instruction reads register `r`, from the table of R103. -/
def readsReg : Instr → Fin 8 → Bool
  | .ldi _ _, _ => false
  | .prn a, r => a.toNat = r.val
  | .mul a b, r => a.toNat = r.val || b.toNat = r.val
  | .hlt _, _ => false
  | .unknown _, _ => false

/-- Whether an instruction writes register `r`, from the table of R103. -/
def writesReg : Instr → Fin 8 → Bool
  | .ldi a _, r => a.toNat = r.val
  | .prn _, _ => false
  | .mul a _, r => a.toNat = r.val
  | .hlt _, _ => false
  | .unknown _, _ => false

/-- The checks of one step in the order of R804, written out over the bytes at p, p+1 and p+2: the context of the first one
that fails. It is stated from the table of R801 and R804, not from the step. -/
def firstFailedCheck (c : Opcodes) (m : Memory) (p : Nat) : Option FaultInfo :=
  let op := cellAt m p
  let a := cellAt m (p + 1)
  let b := cellAt m (p + 2)
  if 256 ≤ p then some (.oob .memory p)
  else if c.isUnknown op then some (.opcode op)
  else if 256 ≤ p + 1 then some (.oob .memory (p + 1))
  else if (op = c.ldi ∨ op = c.mul) ∧ 256 ≤ p + 2 then some (.oob .memory (p + 2))
  else if (op = c.ldi ∨ op = c.prn ∨ op = c.mul) ∧ 8 ≤ a.toNat then some (.oob .register a.toNat)
  else if op = c.mul ∧ 8 ≤ b.toNat then some (.oob .register b.toNat)
  else none

end Sys2Proof
end

