-- ==== Sys2Proof/Certificates/Slice0/Obligations.lean ====
section
/-! DEFINITION. The statements about the machine. They hold for EVERY opcode assignment `c` (R18, decision D1) unless they say
otherwise, and so rest on no default byte. A statement that rests on a decision of 92_eei_decisions.md says so: the decision is
the spec's own choice, not the source's. -/

open Sys2Proof Sys2Proof.Machine

/-! ## Encoding -/

/-- Every well-formed instruction, with every operand at every value, decodes from its own bytes, whatever follows them
(R300 to R305, R309, R311). -/
def Obligations.DecodeOfEncodeIsTheInstruction : Prop :=
  ∀ (c : Opcodes) (i : Instr) (rest : List Byte), i.wf c = true → decode c (encode c i ++ rest) = .ok (i, rest)

/-- The other direction: what the decoder reads is well-formed, and its encoding is the bytes that were read. -/
def Obligations.EncodeOfDecodeIsTheBytes : Prop :=
  ∀ (c : Opcodes) (bytes rest : List Byte) (i : Instr), decode c bytes = .ok (i, rest) →
    i.wf c = true ∧ encode c i ++ rest = bytes

/-- R305: each arm of the opcode table answers for its own byte and for no other, with its own kind and width, and an
unknown opcode is exactly a byte that is none of the four. -/
def Obligations.DecoderAnswersOnlyForItsOwnByte : Prop :=
  ∀ (c : Opcodes) (op : Byte),
    (c.decodeOpcode op = some (.ldi, 3) ↔ op = c.ldi) ∧
    (c.decodeOpcode op = some (.prn, 2) ↔ op = c.prn) ∧
    (c.decodeOpcode op = some (.mul, 3) ↔ op = c.mul) ∧
    (c.decodeOpcode op = some (.hlt, 2) ↔ op = c.hlt) ∧
    (c.decodeOpcode op = none ↔ op ≠ c.ldi ∧ op ≠ c.prn ∧ op ≠ c.mul ∧ op ≠ c.hlt) ∧
    (∀ k w, c.decodeOpcode op = some (k, w) → op = c.byteOf k ∧ w = k.width)

/-- R301 and R302: format F2 has its opcode at pc and `operand_a` at pc+1 and is used by PRN and HLT; format F3 has
`operand_b` at pc+2 as well and is used by LDI and MUL. -/
def Obligations.FormatsF2AndF3 : Prop :=
  ∀ (c : Opcodes) (m : Memory) (p : Nat),
    (p + 1 < 256 → cellAt m p = c.prn → fetchInstr c m p = .ok (.prn (cellAt m (p + 1)))) ∧
    (p + 1 < 256 → cellAt m p = c.hlt → fetchInstr c m p = .ok (.hlt (cellAt m (p + 1)))) ∧
    (p + 2 < 256 → cellAt m p = c.ldi → fetchInstr c m p = .ok (.ldi (cellAt m (p + 1)) (cellAt m (p + 2)))) ∧
    (p + 2 < 256 → cellAt m p = c.mul → fetchInstr c m p = .ok (.mul (cellAt m (p + 1)) (cellAt m (p + 2))))

/-- R307: whatever the assignment, exactly 252 of the 256 byte values are unknown opcodes; under the default values (decision
D1) 0x00 is one of them. -/
def Obligations.UnknownOpcodesAre252 : Prop :=
  (∀ c : Opcodes, ((List.range 256).filter (fun n => c.decodeOpcode (BitVec.ofNat 8 n) = none)).length = 252) ∧
  Opcodes.default.decodeOpcode 0x00 = none

/-- One word per row of the opcode table, bit 0 the lowest bit of the first byte. The opcode bytes are decision D1's (log entry
1, PRESUMED). -/
def Obligations.TableWordsDecode : Prop :=
  decodeTableWord 24 0x170382 = some (.ldi 3 23) ∧
  decodeTableWord 16 0x0747 = some (.prn 7) ∧
  decodeTableWord 24 0x0100A2 = some (.mul 0 1) ∧
  decodeTableWord 16 0xFF01 = some (.hlt 0xFF) ∧
  decodeTableWord 8 0x00 = some (.unknown 0x00)

/-! ## State, reset, memory, registers -/

/-- The reset state (R111, R900). Memory 0, pc 0 and RUNNING are the source's. The registers' 0 is decision D3 (log entry 3), the
absent fault report decision D16 (log entry 14) and the empty log decision D8 (log entry 17). -/
def Obligations.ResetLeavesTheStatedValues : Prop :=
  (∀ addr, addr < 256 → memRead State.reset.mem addr = .ok 0) ∧
  (∀ r : Fin 8, getReg State.reset.x r = 0) ∧
  State.reset.pc = 0 ∧ State.reset.status = .running ∧ State.reset.fault = none ∧ State.reset.out = []

/-- R203: a read at an address of 256 or above raises with that very address, never another cell's value; below 256 it gives
the cell. -/
def Obligations.MemoryReadNeverWraps : Prop :=
  ∀ (m : Memory) (addr : Nat),
    (256 ≤ addr → memRead m addr = .error (.oob .memory addr)) ∧
    (addr < 256 → memRead m addr = .ok (cellAt m addr))

/-- The loader's write (R204): the byte written is read back, every other address reads as before, and what is out of range is
refused. The refusal of a value of 256 or above is decision D20. -/
def Obligations.MemoryWriteReadRoundTrip : Prop :=
  ∀ (m : Memory) (addr v : Nat), m.wf = true →
    (addr < 256 → v < 256 → ∃ m', memWrite m addr v = .ok m' ∧ memRead m' addr = .ok (BitVec.ofNat 8 v) ∧
      ∀ other, other ≠ addr → memRead m' other = memRead m other) ∧
    (256 ≤ addr → memWrite m addr v = .error (.addressOutOfRange addr)) ∧
    (addr < 256 → 256 ≤ v → memWrite m addr v = .error (.valueTooWide v))

/-- The canonical form is one: two canonical memories that read the same at every address are the same data. -/
def Obligations.EqualReadsAreEqualMemories : Prop :=
  ∀ m m' : Memory, m.wf = true → m'.wf = true → (∀ addr, addr < 256 → memRead m addr = memRead m' addr) → m = m'

/-- Eight registers, none hard-wired and none an alias of another: a register reads as last written and every other one keeps
its value (R101). -/
def Obligations.RegistersAreIndependent : Prop :=
  ∀ (x : RegFile) (r r' : Fin 8) (v : Byte),
    getReg (setReg x r v) r = v ∧ (r' ≠ r → getReg (setReg x r v) r' = getReg x r')

/-- R104: an index of 8 or above selects no register. Every instruction that would use it raises OutOfBoundsAccess(REGISTER, i)
with the whole index, and changes no register. That MUL with two bad indices reports its first operand is decision D6 (log entry
6), and that the report names the unmoved pc is decision D5 (log entry 5). -/
def Obligations.RegisterIndexIsNeverMasked : Prop :=
  ∀ (i : Byte) (s : State), 8 ≤ i.toNat →
    ∀ ins : Instr,
      ((∃ b, ins = .ldi i b) ∨ ins = .prn i ∨ (∃ b, ins = .mul i b) ∨ (∃ a : Byte, a.toNat < 8 ∧ ins = .mul a i)) →
      ∃ s', exec ins s = .next s' ∧ s'.fault = some ⟨.outOfBoundsAccess, s.pc, .oob .register i.toNat⟩ ∧
        s'.status = .halted ∧ s'.x = s.x

/-! ## The instructions: where each completes and with what -/

/-- LDI completes for every register index below 8, and writes its immediate to that register and pc + 3 to the pc (R500). -/
def Obligations.LdiCompletes : Prop :=
  ∀ (a b : Byte) (s : State) (h : a.toNat < 8),
    exec (.ldi a b) s = .next { s with x := s.x.set a.toNat b h, pc := s.pc + 3 }

/-- PRN completes for every register index below 8, and appends the register's whole value to the log (R510, R511). -/
def Obligations.PrnCompletes : Prop :=
  ∀ (a : Byte) (s : State) (h : a.toNat < 8),
    exec (.prn a) s = .next { s with out := s.out ++ [s.x[a.toNat]'h], pc := s.pc + 2 }

/-- MUL completes for every two register indices below 8, and writes the product of the OLD values, modulo 2^8, to register a
(R602, R603, R620). The reduction modulo 2^8 is decision D2 (log entry 2). -/
def Obligations.MulCompletes : Prop :=
  ∀ (a b : Byte) (s : State) (ha : a.toNat < 8) (hb : b.toNat < 8),
    ∃ t, exec (.mul a b) s = .next t ∧
      (t.x[a.toNat]'ha).toNat = ((s.x[a.toNat]'ha).toNat * (s.x[b.toNat]'hb).toNat) % 256 ∧
      t = { s with x := t.x, pc := s.pc + 3 } ∧
      ∀ r : Fin 8, r.val ≠ a.toNat → t.x[r] = s.x[r]

/-- HLT completes always: HALTED, and nothing else changes, whatever its operand byte (R700). -/
def Obligations.HltCompletes : Prop :=
  ∀ (a : Byte) (s : State), exec (.hlt a) s = .next { s with status := .halted }

/-- The unknown opcode's own effect is its fault (R701): the report and HALTED, and nothing else changes. -/
def Obligations.UnknownOpcodeTakesItsFault : Prop :=
  ∀ (op : Byte) (s : State),
    exec (.unknown op) s = .next { s with fault := some ⟨.unknownOpcode, s.pc, .opcode op⟩, status := .halted }

/-- LDI, PRN, MUL and HLT store nothing, so every byte of memory reads as before. A register changes only if the table of R103
has the instruction write it. An instruction with its indices in range leaves the fault report alone, and all but HLT the run
state; only PRN changes the log. That a faulting instruction leaves memory, registers and log is R802's decision D5 (log entry
5). -/
def Obligations.InstructionFrame : Prop :=
  ∀ (i : Instr) (s s' : State), exec i s = .next s' →
    (∀ addr, memRead s'.mem addr = memRead s.mem addr) ∧
    (∀ r : Fin 8, writesReg i r = false → getReg s'.x r = getReg s.x r) ∧
    ((∀ a, i ≠ .prn a) → s'.out = s.out) ∧
    (i.regsInRange = true → (∀ op, i ≠ .unknown op) → s'.fault = s.fault) ∧
    (i.regsInRange = true → (∀ op, i ≠ .unknown op) → (∀ a, i ≠ .hlt a) → s'.status = s.status)

/-- R103: what an instruction does depends on no register but those the table has it read, and changes no register but the one
it has it write. Two states that differ only in registers the instruction does not read come out alike in everything but those
registers, and the written register gets the same value in both. An instruction with an index out of range, and a step whose fetch
faults, write no register at all (a fault writes nothing but its report: decision D5, log entry 5), and a fetch reads none. -/
def Obligations.RegisterAccessFollowsR103 : Prop :=
  (∀ (i : Instr) (s s' : State) (y : RegFile), exec i s = .next s' →
    (∀ r : Fin 8, readsReg i r = true → getReg y r = getReg s.x r) →
    ∃ t, exec i { s with x := y } = .next t ∧ t = { s' with x := t.x } ∧
      (∀ r : Fin 8, i.regsInRange = true → writesReg i r = true → getReg t.x r = getReg s'.x r) ∧
      (∀ r : Fin 8, writesReg i r = false → getReg t.x r = getReg y r ∧ getReg s'.x r = getReg s.x r) ∧
      (i.regsInRange = false → t.x = y ∧ s'.x = s.x)) ∧
  (∀ (c : Opcodes) (s : State) (y : RegFile) (info : FaultInfo), s.status = .running →
    fetchInstr c s.mem s.pc = .error info →
    ∃ s', stepWith c s = .next s' ∧ s'.x = s.x ∧ stepWith c { s with x := y } = .next { s' with x := y })

/-! ## The instructions as steps: from the bytes in memory -/

/-- R500 whole, as a step of a running engine over the bytes at pc. The faults' states are those of R802 (decision D5, log entry
5), their order that of R804 (decision D6, log entry 6). -/
def Obligations.LdiStepFollowsR500 : Prop :=
  ∀ (c : Opcodes) (s : State), s.status = .running → s.pc < 256 → cellAt s.mem s.pc = c.ldi →
    (s.pc = 255 → stepWith c s =
      .next { s with fault := some ⟨.outOfBoundsAccess, s.pc, .oob .memory (s.pc + 1)⟩, status := .halted }) ∧
    (s.pc = 254 → stepWith c s =
      .next { s with fault := some ⟨.outOfBoundsAccess, s.pc, .oob .memory (s.pc + 2)⟩, status := .halted }) ∧
    (∀ a b : Byte, s.pc < 254 → cellAt s.mem (s.pc + 1) = a → cellAt s.mem (s.pc + 2) = b →
      (∀ h : a.toNat < 8, stepWith c s = .next { s with x := s.x.set a.toNat b h, pc := s.pc + 3 }) ∧
      (8 ≤ a.toNat → stepWith c s =
        .next { s with fault := some ⟨.outOfBoundsAccess, s.pc, .oob .register a.toNat⟩, status := .halted }))

/-- R510 whole, as a step of a running engine. The faults' states are those of R802 (decision D5). -/
def Obligations.PrnStepFollowsR510 : Prop :=
  ∀ (c : Opcodes) (s : State), s.status = .running → s.pc < 256 → cellAt s.mem s.pc = c.prn →
    (s.pc = 255 → stepWith c s =
      .next { s with fault := some ⟨.outOfBoundsAccess, s.pc, .oob .memory (s.pc + 1)⟩, status := .halted }) ∧
    (∀ a : Byte, s.pc < 255 → cellAt s.mem (s.pc + 1) = a →
      (∀ h : a.toNat < 8, stepWith c s = .next { s with out := s.out ++ [s.x[a.toNat]'h], pc := s.pc + 2 }) ∧
      (8 ≤ a.toNat → stepWith c s =
        .next { s with fault := some ⟨.outOfBoundsAccess, s.pc, .oob .register a.toNat⟩, status := .halted }))

/-- R620 as a step of a running engine, with the unit's result (R602 to R604). Product modulo 2^8: decision D2; check order:
decision D6; fault states: decision D5. -/
def Obligations.MulStepFollowsR620 : Prop :=
  ∀ (c : Opcodes) (s : State), s.status = .running → s.pc < 256 → cellAt s.mem s.pc = c.mul →
    (s.pc = 255 → stepWith c s =
      .next { s with fault := some ⟨.outOfBoundsAccess, s.pc, .oob .memory (s.pc + 1)⟩, status := .halted }) ∧
    (s.pc = 254 → stepWith c s =
      .next { s with fault := some ⟨.outOfBoundsAccess, s.pc, .oob .memory (s.pc + 2)⟩, status := .halted }) ∧
    (∀ a b : Byte, s.pc < 254 → cellAt s.mem (s.pc + 1) = a → cellAt s.mem (s.pc + 2) = b →
      (∀ (ha : a.toNat < 8) (hb : b.toNat < 8), stepWith c s =
        .next { s with x := s.x.set a.toNat ((s.x[a.toNat]'ha) * (s.x[b.toNat]'hb)) ha, pc := s.pc + 3 }) ∧
      (8 ≤ a.toNat → stepWith c s =
        .next { s with fault := some ⟨.outOfBoundsAccess, s.pc, .oob .register a.toNat⟩, status := .halted }) ∧
      (a.toNat < 8 → 8 ≤ b.toNat → stepWith c s =
        .next { s with fault := some ⟨.outOfBoundsAccess, s.pc, .oob .register b.toNat⟩, status := .halted }))

/-- R700 whole, as a step of a running engine: any operand byte behaves the same, and an HLT at address 255 faults on the fetch
of its ignored operand (decision D7, log entry 7). The fault's state is that of R802 (decision D5, log entry 5). -/
def Obligations.HltStepFollowsR700 : Prop :=
  ∀ (c : Opcodes) (s : State), s.status = .running → s.pc < 256 → cellAt s.mem s.pc = c.hlt →
    (s.pc < 255 → stepWith c s = .next { s with status := .halted }) ∧
    (s.pc = 255 → stepWith c s =
      .next { s with fault := some ⟨.outOfBoundsAccess, s.pc, .oob .memory 256⟩, status := .halted })

/-- R403 (and R701), as a step of a running engine: an opcode outside the table raises at once, at ANY address of memory, the last
one included, since no operand byte is fetched; no register, output or pc changes. The pc in the report and after the fault is
decision D5 (log entry 5). -/
def Obligations.UnknownStepFollowsR403 : Prop :=
  ∀ (c : Opcodes) (s : State) (op : Byte), s.status = .running → s.pc < 256 → cellAt s.mem s.pc = op →
    op ≠ c.ldi → op ≠ c.prn → op ≠ c.mul → op ≠ c.hlt →
    stepWith c s = .next { s with fault := some ⟨.unknownOpcode, s.pc, .opcode op⟩, status := .halted }

/-! ## The arithmetic unit -/

/-- R602, every tag: the index checks in order, the sum and the product modulo 2^8, and the unsupported tag last. Overflow:
decision D2; check order: decision D6. -/
def Obligations.AluFollowsR602 : Prop :=
  ∀ (tag : Tag) (a b : Byte) (x : RegFile),
    (8 ≤ a.toNat → alu .wrap tag a b x = .error (.raised (.oob .register a.toNat))) ∧
    (a.toNat < 8 → 8 ≤ b.toNat → alu .wrap tag a b x = .error (.raised (.oob .register b.toNat))) ∧
    (∀ (ha : a.toNat < 8) (hb : b.toNat < 8),
      alu .wrap .add a b x = .ok (x.set a.toNat (x[a.toNat]'ha + x[b.toNat]'hb) ha) ∧
      alu .wrap .multiply a b x = .ok (x.set a.toNat (x[a.toNat]'ha * x[b.toNat]'hb) ha) ∧
      ∀ n, alu .wrap (.other n) a b x = .error (.raised (.tag (.other n))))

/-- R600: the unit is a function of the register file it is given. Its result depends only on the tag and the two registers, it
writes register a and nothing else, and register b is only read. -/
def Obligations.AluReadsTwoRegistersAndWritesOne : Prop :=
  ∀ (ov : ArithOverflow) (tag : Tag) (a b : Byte) (x x' y : RegFile), alu ov tag a b x = .ok x' →
    (∀ r : Fin 8, r.val = a.toNat ∨ r.val = b.toNat → getReg y r = getReg x r) →
    ∃ y', alu ov tag a b y = .ok y' ∧
      (∀ r : Fin 8, r.val = a.toNat → getReg y' r = getReg x' r) ∧
      (∀ r : Fin 8, r.val ≠ a.toNat → getReg x' r = getReg x r ∧ getReg y' r = getReg y r)

/-- R606: an unsupported tag is fatal. The engine that dispatched it halts with the tag in its report, and no register is
written. That every tag `other n` is unsupported is decision D15 (log entry 13), that the indices are checked first is decision D6
(log entry 6), and the pc after the fault and in the report is decision D5 (log entry 5). -/
def Obligations.UnsupportedTagIsFatal : Prop :=
  ∀ (ov : ArithOverflow) (n : Nat) (a b : Byte) (s : State), a.toNat < 8 → b.toNat < 8 →
    execAlu ov (.other n) a b s =
      .next { s with fault := some ⟨.unsupportedOperation, s.pc, .tag (.other n)⟩, status := .halted }

/-- R621: no instruction reaches ADD or an unsupported tag, so no step of any machine state reports UnsupportedOperation unless
the report was there before. -/
def Obligations.NoStepReportsUnsupportedOperation : Prop :=
  ∀ (c : Opcodes) (s s' : State) (f : FaultReport), stepWith c s = .next s' → s.fault = none → s'.fault = some f →
    f.kind ≠ .unsupportedOperation

/-! ## The parameters ARITH_OVERFLOW and UNWRITTEN_READ -/

/-- `ARITH_OVERFLOW = fault` (R604, decision D2): MUL stops exactly when the exact product is 256 or more, and otherwise does
what it does under `wrap`. -/
def Obligations.OverflowFaultStopsExactlyOnOverflow : Prop :=
  ∀ (a b : Byte) (s : State) (ha : a.toNat < 8) (hb : b.toNat < 8),
    ((s.x[a.toNat]'ha).toNat * (s.x[b.toNat]'hb).toNat < 256 →
      execUnder .fault (.mul a b) s = exec (.mul a b) s) ∧
    (256 ≤ (s.x[a.toNat]'ha).toNat * (s.x[b.toNat]'hb).toNat →
      execUnder .fault (.mul a b) s = .fault (.arithOverflow ((s.x[a.toNat]'ha).toNat * (s.x[b.toNat]'hb).toNat)))

/-- Under any value of the parameters (decisions D2, D3) a step that goes on is a step of the default machine: the optional
faults only stop it. Under the defaults it never stops while RUNNING. -/
def Obligations.OptionalFaultsOnlyStop : Prop :=
  (∀ (cfg : Config) (t t' : Tracked), stepUnder cfg t = .next t' → stepWith cfg.opcodes t.st = .next t'.st) ∧
  (∀ t : Tracked, t.st.status = .running → ∃ t', stepUnder defaultConfig t = .next t' ∧ step t.st = .next t'.st)

/-- `UNWRITTEN_READ = fault` (R111, R510, decision D3): with its indices in range, a PRN or MUL stops exactly when it would read a
register that no LDI or MUL has written, and otherwise does what it does without the parameter; with an index out of range it
reads nothing and raises. That the index checks come first, and that MUL's operands are looked at in the order a, b, is the
model's choice (log entry 20). The state an index fault leaves is that of R802 (decision D5, log entry 5), and which of two bad
indices is reported is decision D6 (log entry 6). -/
def Obligations.UnwrittenReadStopsPrnAndMul : Prop :=
  ∀ (ov : ArithOverflow) (c : Opcodes) (a b : Byte) (t : Tracked),
    (∀ h : a.toNat < 8,
      (t.written[a.toNat]'h = false →
        execTracked ⟨c, ov, .fault⟩ (.prn a) t = .fault (.unwrittenRead ⟨a.toNat, h⟩) ∧
        (b.toNat < 8 → execTracked ⟨c, ov, .fault⟩ (.mul a b) t = .fault (.unwrittenRead ⟨a.toNat, h⟩))) ∧
      (t.written[a.toNat]'h = true →
        (∃ t', execTracked ⟨c, ov, .fault⟩ (.prn a) t = .next t' ∧ exec (.prn a) t.st = .next t'.st) ∧
        ∀ hb : b.toNat < 8,
          (t.written[b.toNat]'hb = false →
            execTracked ⟨c, ov, .fault⟩ (.mul a b) t = .fault (.unwrittenRead ⟨b.toNat, hb⟩)) ∧
          (t.written[b.toNat]'hb = true →
            (∀ s, execUnder ov (.mul a b) t.st = .next s →
              ∃ t', execTracked ⟨c, ov, .fault⟩ (.mul a b) t = .next t' ∧ t'.st = s) ∧
            (∀ f, execUnder ov (.mul a b) t.st = .fault f → execTracked ⟨c, ov, .fault⟩ (.mul a b) t = .fault f)))) ∧
    (8 ≤ a.toNat →
      execTracked ⟨c, ov, .fault⟩ (.prn a) t = .next { t with st := takeFault (.oob .register a.toNat) t.st } ∧
      execTracked ⟨c, ov, .fault⟩ (.mul a b) t = .next { t with st := takeFault (.oob .register a.toNat) t.st }) ∧
    (a.toNat < 8 → 8 ≤ b.toNat →
      execTracked ⟨c, ov, .fault⟩ (.mul a b) t = .next { t with st := takeFault (.oob .register b.toNat) t.st })

/-! ## The step -/

/-- When the bytes at the pc decode to an instruction, the step of a running engine is `exec` of it at that very state: the pc
holds the instruction's address throughout (R405, decision D5), and nothing is added around it. `step` is the step under the
default opcodes. -/
def Obligations.StepRunsTheDecodedInstruction : Prop :=
  (∀ (c : Opcodes) (s : State) (i : Instr) (rest : List Byte), s.status = .running →
    decode c (bytesFrom s.mem s.pc) = .ok (i, rest) → stepWith c s = exec i s) ∧
  (∀ s : State, step s = stepWith Opcodes.default s)

/-- The fetch past the end of memory (R402, decision D4, log entries 4 and 11): the pc never wraps. The state the fault leaves
is that of R802 (decision D5, log entry 5). -/
def Obligations.FetchPastTheEndFaults : Prop :=
  ∀ (c : Opcodes) (s : State), s.status = .running → 256 ≤ s.pc →
    stepWith c s = .next { s with fault := some ⟨.outOfBoundsAccess, s.pc, .oob .memory s.pc⟩, status := .halted }

/-- R409: no step is defined from HALTED. That the model answers a refusal by name is its own choice (log entry 8). -/
def Obligations.HaltedEngineTakesNoStep : Prop :=
  ∀ (c : Opcodes) (s : State), s.status = .halted → stepWith c s = .refused .halted ∧ run c s = s

/-- While RUNNING the step is total (R410): it answers a next state, never a fault or a refusal of the model. -/
def Obligations.StepIsTotalWhileRunning : Prop :=
  ∀ (c : Opcodes) (s : State), s.status = .running → ∃ s', stepWith c s = .next s'

/-- R406 and R407: a step after which the engine still runs completed an LDI or MUL and raised the pc by 3, or a PRN and raised
it by 2, and left it at most 256 (the range of decision D4, log entry 4); every other step ends the run with the pc where it was,
for a fault by decision D5 (log entry 5). -/
def Obligations.PcSequencerFollowsR406 : Prop :=
  ∀ (c : Opcodes) (s s' : State), stepWith c s = .next s' →
    (s'.status = .running →
      s'.pc ≤ 256 ∧
      ((∃ a b, (fetchInstr c s.mem s.pc = .ok (.ldi a b) ∨ fetchInstr c s.mem s.pc = .ok (.mul a b)) ∧ s'.pc = s.pc + 3) ∨
       (∃ a, fetchInstr c s.mem s.pc = .ok (.prn a) ∧ s'.pc = s.pc + 2))) ∧
    (s'.status = .halted → s'.pc = s.pc)

/-- No step writes memory (R201, R214): every cell keeps its value, and so does every later fetch. -/
def Obligations.StepNeverWritesMemory : Prop :=
  ∀ (c : Opcodes) (s s' : State), stepWith c s = .next s' →
    s'.mem = s.mem ∧ ∀ p, fetchInstr c s'.mem p = fetchInstr c s.mem p

/-- A fault is precise (R408, R802, decision D5, log entry 5; the report's form is decision D16, log entry 14): a step that
reports one writes the report, about the instruction at the pc, and HALTED, and nothing else. -/
def Obligations.FaultStepWritesOnlyTheReport : Prop :=
  ∀ (c : Opcodes) (s s' : State) (f : FaultReport), stepWith c s = .next s' → s.fault = none → s'.fault = some f →
    s' = { s with fault := some f, status := .halted } ∧ f.pc = s.pc ∧ f.kind = faultKindOf f.info

/-- R108: only PRN changes the output log. A PRN that completes appends exactly one value, the register's, which the host sees as
one more line; a PRN that faults and every other step append nothing, and no value is ever removed. -/
def Obligations.OutputLogGrowsOnlyByPrn : Prop :=
  ∀ (c : Opcodes) (s s' : State), stepWith c s = .next s' →
    (∀ a, fetchInstr c s.mem s.pc = .ok (.prn a) → s'.status = .running →
      ∃ h : a.toNat < 8, s'.out = s.out ++ [s.x[a.toNat]'h] ∧
        renderLog s'.out = renderLog s.out ++ renderValue (s.x[a.toNat]'h)) ∧
    (((∀ a, fetchInstr c s.mem s.pc ≠ .ok (.prn a)) ∨ s'.status = .halted) → s'.out = s.out)

/-- R110: no instruction reads the output log or the fault report. States that differ only there take the same step in
everything else, and append the same values. -/
def Obligations.NoStepReadsTheLogOrTheReport : Prop :=
  ∀ (c : Opcodes) (s s' : State) (o : List Byte) (f : Option FaultReport), stepWith c s = .next s' →
    ∃ t, stepWith c { s with out := o, fault := f } = .next t ∧
      t.mem = s'.mem ∧ t.x = s'.x ∧ t.pc = s'.pc ∧ t.status = s'.status ∧ t.out = o ++ outputEvents s s'

/-- R804: the step of a running engine reports the first check of the table that fails, and reports nothing new where none fails.
The order of checks 5 to 7 is decision D6 (log entry 6), that a fetch past the end fails check 1 decision D4 (log entries 4 and
11), and that HLT has check 3 decision D7 (log entry 7). The state after the fault is R802: report and HALTED only, with the pc
where it was, decision D5 (log entry 5). -/
def Obligations.FaultPriorityFollowsR804 : Prop :=
  ∀ (c : Opcodes) (s : State), s.status = .running →
    (∀ info, firstFailedCheck c s.mem s.pc = some info → stepWith c s =
      .next { s with fault := some ⟨faultKindOf info, s.pc, info⟩, status := .halted }) ∧
    (firstFailedCheck c s.mem s.pc = none → ∃ s', stepWith c s = .next s' ∧ s'.fault = s.fault)

/-- R903: a step ends the run cleanly only by an HLT at an address of at most 254, and then it changes nothing but the run
state. The bound 254 rests on decision D7 (log entry 7): an HLT at 255 faults on the fetch of its ignored operand. -/
def Obligations.CleanEndComesOnlyFromHlt : Prop :=
  ∀ (c : Opcodes) (s s' : State), stepWith c s = .next s' → CleanEnd s' →
    ∃ a, fetchInstr c s.mem s.pc = .ok (.hlt a) ∧ s.pc ≤ 254 ∧ s' = { s with status := .halted }

/-- R106: the engine starts in RUNNING; no step and no operation of the interface leaves HALTED; HLT enters it, and so does every
fault. A step into HALTED completed an HLT or left the report of a fault, and there is no third way. The form of the refusals is
the model's choice (log entries 8 and 15, decision D10), and the state a fault leaves is decision D5 (log entry 5). -/
def Obligations.HaltedIsTerminal : Prop :=
  State.reset.status = .running ∧
  (∀ (c : Opcodes) (s s' : State), stepWith c s = .next s' → s.status = .running) ∧
  (∀ (c : Opcodes) (e : Engine) (img : List Byte) (src : Option (List (List Char))) (p : PinsIn),
    e.st.status = .halted → e.phase = .finished →
    (loadImage img e).1 = e ∧ (loadSource src e).1 = e ∧ (runEngine c e).1 = e ∧ (applyPins c p e).1 = e) ∧
  (∀ (a : Byte) (s s' : State), exec (.hlt a) s = .next s' → s'.status = .halted) ∧
  (∀ (c : Opcodes) (s s' : State), stepWith c s = .next s' → s'.fault ≠ s.fault → s'.status = .halted) ∧
  (∀ (c : Opcodes) (s s' : State), stepWith c s = .next s' → s'.status = .halted →
    (∃ a, fetchInstr c s.mem s.pc = .ok (.hlt a) ∧ s' = { s with status := .halted }) ∨
    ((∀ a, fetchInstr c s.mem s.pc ≠ .ok (.hlt a)) ∧
      ∃ info, s' = { s with fault := some ⟨faultKindOf info, s.pc, info⟩, status := .halted }))

/-! ## Invariant and end of a run -/

/-- Every step keeps the invariant: memory canonical, pc at most 256, no fault report while RUNNING, and a report that is about
the instruction at the pc, of the kind its context belongs to, with a context a step can report. The range of the pc is decision
D4 (log entry 4), that a fault leaves the pc at its instruction decision D5 (log entry 5), and the form of the report decision
D16 (log entry 14). -/
def Obligations.EveryStepKeepsTheInvariant : Prop :=
  (∀ (c : Opcodes) (s s' : State), LegalState c s → stepWith c s = .next s' → LegalState c s') ∧
  (∀ s s' : State, LegalState Opcodes.default s → step s = .next s' → LegalState Opcodes.default s')

/-- The reset state meets the invariant, and so does the engine with any image that loads. That reset has no fault report is
decision D16 (log entry 14). -/
def Obligations.ResetMeetsTheInvariant : Prop :=
  ∀ c : Opcodes, LegalState c State.reset ∧ ∀ (img : List Byte) (s : State), loadState img State.reset = .ok s → LegalState c s

/-- R412: from EVERY state, whatever memory holds, the run is over within 129 steps, and more steps change nothing. A run from a
state that meets the invariant ends in one. That every run ends rests on decision D4 (log entry 4): the pc does not wrap. That `run`
is at most 129 steps of the loop is log entry 22. -/
def Obligations.EveryRunEndsWithin129Steps : Prop :=
  (∀ (c : Opcodes) (s : State), (run c s).status = .halted ∧ ∀ n, 129 ≤ n → runFor c n s = run c s) ∧
  (∀ (c : Opcodes) (s : State), LegalState c s → LegalState c (run c s))

/-! ## Loader, interface, output, assembler -/

/-- R906: an image of n at most 256 bytes lies at addresses 0 to n-1, the cells after it keep their reset value 0, and nothing
but memory changes. -/
def Obligations.LoadingFollowsR906 : Prop :=
  ∀ img : List Byte, img.length ≤ 256 →
    ∃ s, loadState img State.reset = .ok s ∧
      (∀ (k : Nat) (h : k < img.length), memRead s.mem k = .ok img[k]) ∧
      (∀ k, img.length ≤ k → k < 256 → memRead s.mem k = .ok 0) ∧
      s.x = State.reset.x ∧ s.pc = State.reset.pc ∧ s.status = State.reset.status ∧ s.fault = State.reset.fault ∧
      s.out = State.reset.out

/-- An image of more than 256 bytes fails the load (R907, decision D10) and leaves an engine that loaded nothing. -/
def Obligations.OversizedImageFailsTheLoad : Prop :=
  ∀ img : List Byte, 256 < img.length →
    loadImage img construct = (⟨State.reset, .failed⟩, some (.load (.addressOutOfRange 256)))

/-- R909: after a failed load, from an image or from text, no operation of the interface takes a step. That a failed load leaves
the engine's state as before, and that an observation and the pins' inputs are refused after it, is the model's choice (log entries
15 and 19). -/
def Obligations.FailedLoadNeverRuns : Prop :=
  ∀ (c : Opcodes) (e e' : Engine) (why : LoadStop),
    ((∃ img, loadImage img e = (e', some (.load why))) ∨ (∃ src, loadSource src e = (e', some (.load why)))) →
    e'.st = e.st ∧
    (runEngine c e').1 = e' ∧ (∀ p, (applyPins c p e').1 = e') ∧ (∀ img, (loadImage img e').1 = e') ∧
    (∀ src, (loadSource src e').1 = e') ∧
    observe e' = .error .observeNotAllowed

/-- R114 (decision D10): a load only before the first load, a run only after a load and only once, and an observation only after
the run. -/
def Obligations.InterfaceKeepsItsOrder : Prop :=
  ∀ (c : Opcodes) (img : List Byte) (e : Engine),
    ((loadImage img e).2 = none → e.phase = .constructed ∧ (loadImage img e).1.phase = .loaded) ∧
    ((runEngine c e).2 = none ↔ e.phase = .loaded) ∧
    (e.phase = .loaded → (runEngine c e).1.phase = .finished ∧
      (runEngine c (runEngine c e).1).2 = some .runNotAllowed ∧
      observe (runEngine c e).1 = .ok (run c e.st)) ∧
    (∀ s, observe e = .ok s → e.phase = .finished)

/-- The whole interface on any image of at most 256 bytes (R902, R411, R412): it loads, runs and is observed in HALTED, in a state
that meets the invariant and whose memory still holds the image. That every run ends rests on decision D4 (log entry 4), and the
accepted order of the operations on decision D10 (log entry 15). -/
def Obligations.LoadedImageRunsToItsEnd : Prop :=
  ∀ (c : Opcodes) (img : List Byte), img.length ≤ 256 →
    (loadImage img construct).2 = none ∧ (runEngine c (loadImage img construct).1).2 = none ∧
    ∃ s, observe (runEngine c (loadImage img construct).1).1 = .ok s ∧ s.status = .halted ∧ LegalState c s ∧
      ∀ (k : Nat) (h : k < img.length), memRead s.mem k = .ok img[k]

/-- The pins add no behaviour to the interface (R116, decision D9): writing the bytes of an image one by one is loading it. -/
def Obligations.PinWritesAreTheLoad : Prop :=
  ∀ (c : Opcodes) (img : List Byte), img ≠ [] → img.length ≤ 256 →
    (List.range img.length).foldl
      (fun e k => (applyPins c ⟨true, BitVec.ofNat 8 k, img.getD k 0, false⟩ e).1) construct = (loadImage img construct).1

/-- The output pins of a fault (R116, R800; codes of decisions D9, D15, D16): a step that raises shows HALTED, no output pulse, and
the kind, the pc, the space and the context of the report. `fault_space` is 0 for MEMORY and 1 for REGISTER; for the other kinds
R116 states no value and the model has none (log entry 19). That the report's pc is the unmoved pc is decision D5 (log entry 5). -/
def Obligations.FaultPinsFollowR116 : Prop :=
  ∀ (info : FaultInfo) (s : State),
    (pinsOut s (takeFault info s)).halted = true ∧ (pinsOut s (takeFault info s)).faultValid = true ∧
    (pinsOut s (takeFault info s)).outValid = false ∧
    (pinsOut s (takeFault info s)).faultPc = some (BitVec.ofNat 9 s.pc) ∧
    (∀ n, info = .oob .memory n → (pinsOut s (takeFault info s)).faultSpace = some 0) ∧
    (∀ n, info = .oob .register n → (pinsOut s (takeFault info s)).faultSpace = some 1) ∧
    ((∀ sp n, info ≠ .oob sp n) → (pinsOut s (takeFault info s)).faultSpace = none) ∧
    (∀ sp n, info = .oob sp n → (pinsOut s (takeFault info s)).faultKind = some 1 ∧
      (pinsOut s (takeFault info s)).faultInfo = some (BitVec.ofNat 9 n)) ∧
    (∀ b, info = .opcode b → (pinsOut s (takeFault info s)).faultKind = some 2 ∧
      (pinsOut s (takeFault info s)).faultInfo = some (b.setWidth 9)) ∧
    (∀ t, info = .tag t → (pinsOut s (takeFault info s)).faultKind = some 3 ∧
      (pinsOut s (takeFault info s)).faultInfo = some (BitVec.ofNat 9 (tagCode t)))

/-- A listing of an image, one binary literal a line with any comment text, loads back as the image (R314, R908, decision D17). -/
def Obligations.ListingLoadsBack : Prop :=
  ∀ (img : List Byte) (comment : Byte → List Char),
    loadText (some (img.map (fun v => listingLine v (comment v)))) = .ok img

/-- The decimal text of a byte (R115, R511, decision D8): its digits read back as the byte, there are one to three of them, and
the first is 0 for the byte 0 only. -/
def Obligations.DecimalDigitsReadBack : Prop :=
  ∀ v : Byte, decimalValue (decimalDigits v) = some v.toNat ∧
    1 ≤ (decimalDigits v).length ∧ (decimalDigits v).length ≤ 3 ∧
    ((decimalDigits v).head? = some '0' → v = 0)

/-- The host can read the log from the text: no two logs print the same (R115, decision D8: each value is one line). -/
def Obligations.RenderedLogIsFaithful : Prop :=
  ∀ log log' : List Byte, renderLog log = renderLog log' → log = log'

/-- The assembly of an instruction assembles to the instruction (R312, R313, decision D14), under every opcode assignment to its
encoding. -/
def Obligations.AssemblyRoundTrip : Prop :=
  ∀ (c : Opcodes) (i : Instr) (text : List Char), asmText i = some text →
    parseAsm text = some i ∧ assembleLine c text = some (encode c i)

/-- A word of the opcode table placed where the engine fetches is what the next step runs, and no other cell changes. -/
def Obligations.PlacedWordIsRunNext : Prop :=
  ∀ (s : State) (nbits w : Nat) (i : Instr), s.status = .running → s.mem.wf = true → s.pc + 2 < 256 →
    decodeTableWord nbits w = some i →
    step (s.withFetchWord nbits w) = exec i (s.withFetchWord nbits w) ∧
    ∀ addr, (addr < s.pc ∨ s.pc + 2 < addr) → memRead (s.withFetchWord nbits w).mem addr = memRead s.mem addr

/-- The output pins over a step that is no fault's (R116, decision D9): `out_valid` pulses over a step exactly when it completes a
PRN, and `out_data` is then the register's value; an LDI, a MUL, an HLT and a faulting step give no pulse, and `out_data` has no
value there (the model's choice, log entry 19). `halted` and `fault_valid` show the state after the step, whatever it was. -/
def Obligations.OutputPulsesExactlyOnACompletedPrn : Prop :=
  ∀ (c : Opcodes) (s s' : State), stepWith c s = .next s' →
    (∀ a, fetchInstr c s.mem s.pc = .ok (.prn a) → s'.status = .running →
      ∃ h : a.toNat < 8, (pinsOut s s').outValid = true ∧ (pinsOut s s').outData = some (s.x[a.toNat]'h)) ∧
    (((∀ a, fetchInstr c s.mem s.pc ≠ .ok (.prn a)) ∨ s'.status = .halted) →
      (pinsOut s s').outValid = false ∧ (pinsOut s s').outData = none) ∧
    ((pinsOut s s').halted = true ↔ s'.status = .halted) ∧
    ((pinsOut s s').faultValid = true ↔ s'.fault ≠ none)

/-- The record behind `UNWRITTEN_READ = fault` (R111, decision D3; the record is the model's own, log entry 20): nothing is written
at reset; an instruction that goes on marks exactly the register that the table of R103 has it write, and only with its indices
in range, so a faulting one marks nothing; no mark is ever taken away, and a faulting fetch marks nothing. -/
def Obligations.WrittenRecordFollowsLdiAndMul : Prop :=
  (∀ r : Fin 8, trackedReset.written[r] = false) ∧
  (∀ (cfg : Config) (i : Instr) (t t' : Tracked) (r : Fin 8), execTracked cfg i t = .next t' →
    (t'.written[r] = true ↔ t.written[r] = true ∨ (i.regsInRange = true ∧ writesReg i r = true))) ∧
  (∀ (cfg : Config) (t t' : Tracked) (info : FaultInfo), fetchInstr cfg.opcodes t.st.mem t.st.pc = .error info →
    stepUnder cfg t = .next t' → t'.written = t.written)
end

