-- ==== Sys2Proof/Laws/Decode.lean ====
section
/-! SUPPORT. What the opcode table and the decoder can answer. -/

namespace Sys2Proof

/-- The six inequalities that R18's condition comes to. -/
theorem Opcodes.ne (c : Opcodes) :
    c.ldi ≠ c.prn ∧ c.ldi ≠ c.mul ∧ c.ldi ≠ c.hlt ∧ c.prn ≠ c.mul ∧ c.prn ≠ c.hlt ∧ c.mul ≠ c.hlt := by
  have h := c.distinct
  simp only [List.nodup_cons, List.mem_cons, List.not_mem_nil, or_false, not_or] at h
  tauto

theorem Opcodes.decodeOpcode_byteOf (c : Opcodes) (k : Kind) : c.decodeOpcode (c.byteOf k) = some (k, k.width) := by
  obtain ⟨h1, h2, h3, h4, h5, h6⟩ := c.ne
  cases k
  · simp [Opcodes.decodeOpcode, Opcodes.byteOf, Kind.width]
  · simp [Opcodes.decodeOpcode, Opcodes.byteOf, Kind.width, h1.symm]
  · simp [Opcodes.decodeOpcode, Opcodes.byteOf, Kind.width, h2.symm, h4.symm]
  · simp [Opcodes.decodeOpcode, Opcodes.byteOf, Kind.width, h3.symm, h5.symm, h6.symm]

/-- The table's answer names its own opcode byte and its own width. -/
theorem Opcodes.decodeOpcode_some {c : Opcodes} {op : Byte} {k : Kind} {w : Nat} (h : c.decodeOpcode op = some (k, w)) :
    op = c.byteOf k ∧ w = k.width := by
  unfold Opcodes.decodeOpcode at h
  split at h
  · obtain ⟨rfl, rfl⟩ : Kind.ldi = k ∧ 3 = w := by simpa using h
    exact ⟨‹_›, rfl⟩
  split at h
  · obtain ⟨rfl, rfl⟩ : Kind.prn = k ∧ 2 = w := by simpa using h
    exact ⟨‹_›, rfl⟩
  split at h
  · obtain ⟨rfl, rfl⟩ : Kind.mul = k ∧ 3 = w := by simpa using h
    exact ⟨‹_›, rfl⟩
  split at h
  · obtain ⟨rfl, rfl⟩ : Kind.hlt = k ∧ 2 = w := by simpa using h
    exact ⟨‹_›, rfl⟩
  · simp at h

theorem Opcodes.isUnknown_iff {c : Opcodes} {op : Byte} :
    c.isUnknown op = true ↔ op ≠ c.ldi ∧ op ≠ c.prn ∧ op ≠ c.mul ∧ op ≠ c.hlt := by
  simp [Opcodes.isUnknown, and_assoc]

/-- The decoder answers NONE exactly on the unknown opcodes. -/
theorem Opcodes.decodeOpcode_none_iff {c : Opcodes} {op : Byte} : c.decodeOpcode op = none ↔ c.isUnknown op = true := by
  rw [Opcodes.isUnknown_iff]
  unfold Opcodes.decodeOpcode
  split
  · simp_all
  split
  · simp_all
  split
  · simp_all
  split
  · simp_all
  · simp_all

/-- Everything a fetch and decode can answer when it gives an instruction. -/
theorem decodeFrom_ok {ε : Type} {c : Opcodes} {fetch : Nat → Except ε Byte} {i : Instr} (h : decodeFrom c fetch = .ok i) :
    (∃ op, fetch 0 = .ok op ∧ c.isUnknown op = true ∧ i = .unknown op) ∨
    (∃ a b, fetch 0 = .ok c.ldi ∧ fetch 1 = .ok a ∧ fetch 2 = .ok b ∧ i = .ldi a b) ∨
    (∃ a, fetch 0 = .ok c.prn ∧ fetch 1 = .ok a ∧ i = .prn a) ∨
    (∃ a b, fetch 0 = .ok c.mul ∧ fetch 1 = .ok a ∧ fetch 2 = .ok b ∧ i = .mul a b) ∨
    (∃ a, fetch 0 = .ok c.hlt ∧ fetch 1 = .ok a ∧ i = .hlt a) := by
  unfold decodeFrom at h
  cases h0 : fetch 0 with
  | error e => simp [h0] at h
  | ok op =>
    simp only [h0] at h
    cases hd : c.decodeOpcode op with
    | none =>
      simp only [hd] at h
      exact .inl ⟨op, rfl, Opcodes.decodeOpcode_none_iff.mp hd, by simpa using h.symm⟩
    | some kw =>
      obtain ⟨k, w⟩ := kw
      obtain ⟨rfl, rfl⟩ := Opcodes.decodeOpcode_some hd
      simp only [hd] at h
      cases h1 : fetch 1 with
      | error e => simp [h1] at h
      | ok a =>
        simp only [h1] at h
        cases k with
        | ldi =>
          cases h2 : fetch 2 with
          | error e => simp [h2, Kind.width] at h
          | ok b => exact .inr (.inl ⟨a, b, rfl, rfl, rfl, by simpa [h2, Kind.width, Kind.instr] using h.symm⟩)
        | prn => exact .inr (.inr (.inl ⟨a, rfl, rfl, by simpa [Kind.width, Kind.instr] using h.symm⟩))
        | mul =>
          cases h2 : fetch 2 with
          | error e => simp [h2, Kind.width] at h
          | ok b => exact .inr (.inr (.inr (.inl ⟨a, b, rfl, rfl, rfl, by simpa [h2, Kind.width, Kind.instr] using h.symm⟩)))
        | hlt => exact .inr (.inr (.inr (.inr ⟨a, rfl, rfl, by simpa [Kind.width, Kind.instr] using h.symm⟩)))

/-- A fetch and decode that gives no instruction stopped at the first byte it needed and could not fetch. -/
theorem decodeFrom_error {ε : Type} {c : Opcodes} {fetch : Nat → Except ε Byte} {e : ε} (h : decodeFrom c fetch = .error e) :
    fetch 0 = .error e ∨
    (∃ k, fetch 0 = .ok (c.byteOf k) ∧ fetch 1 = .error e) ∨
    (∃ k a, fetch 0 = .ok (c.byteOf k) ∧ k.width = 3 ∧ fetch 1 = .ok a ∧ fetch 2 = .error e) := by
  unfold decodeFrom at h
  cases h0 : fetch 0 with
  | error e' => exact .inl (by simpa [h0] using h)
  | ok op =>
    simp only [h0] at h
    cases hd : c.decodeOpcode op with
    | none => simp [hd] at h
    | some kw =>
      obtain ⟨k, w⟩ := kw
      obtain ⟨rfl, rfl⟩ := Opcodes.decodeOpcode_some hd
      simp only [hd] at h
      cases h1 : fetch 1 with
      | error e' => exact .inr (.inl ⟨k, rfl, by simpa [h1] using h⟩)
      | ok a =>
        simp only [h1] at h
        split at h
        · rename_i hw
          cases h2 : fetch 2 with
          | error e' => exact .inr (.inr ⟨k, a, rfl, hw, rfl, by simpa [h2] using h⟩)
          | ok b => simp [h2] at h
        · simp at h

end Sys2Proof
end

