-- ==== Sys2Proof/Laws/Regs.lean ====
section
/-! SUPPORT. The laws of the register file and of the register-index check. -/

namespace Sys2Proof.Machine

theorem getReg_setReg (x : RegFile) (r r' : Fin 8) (v : Byte) :
    getReg (setReg x r v) r' = if r = r' then v else getReg x r' := by
  simp [getReg, setReg, Vector.getElem_set, Fin.ext_iff]

/-- The check passes exactly for an index below 8, and then it selects that register. -/
theorem regOperand_ok_iff {i : Byte} {r : Fin 8} : regOperand i = .ok r ↔ i.toNat = r.val := by
  unfold regOperand
  split
  · simp [Fin.ext_iff]
  · have := r.isLt
    simp only [numRegs] at *
    constructor
    · intro h; simp at h
    · omega

theorem regOperand_of_lt {i : Byte} (h : i.toNat < 8) : regOperand i = .ok ⟨i.toNat, h⟩ := by
  simp [regOperand, numRegs, h]

theorem regOperand_of_ge {i : Byte} (h : 8 ≤ i.toNat) : regOperand i = .error (.oob .register i.toNat) := by
  simp [regOperand, numRegs, Nat.not_lt.mpr h]

/-- What a refused index records, and when. -/
theorem regOperand_error_iff {i : Byte} {info : FaultInfo} :
    regOperand i = .error info ↔ 8 ≤ i.toNat ∧ info = .oob .register i.toNat := by
  by_cases h : i.toNat < 8
  · simp [regOperand_of_lt h, Nat.not_le.mpr h]
  · rw [regOperand_of_ge (Nat.le_of_not_lt h)]
    constructor
    · intro hi
      exact ⟨Nat.le_of_not_lt h, by simpa using hi.symm⟩
    · rintro ⟨-, rfl⟩
      rfl

end Sys2Proof.Machine
end

