-- ==== Sys2Proof/Laws/State.lean ====
section
/-! SUPPORT. One lemma per field of the state and per update of it, and per field of `State.reset`. -/

namespace Sys2Proof.Machine

@[simp] theorem takeFault_mem (info : FaultInfo) (s : State) : (takeFault info s).mem = s.mem := rfl
@[simp] theorem takeFault_x (info : FaultInfo) (s : State) : (takeFault info s).x = s.x := rfl
@[simp] theorem takeFault_pc (info : FaultInfo) (s : State) : (takeFault info s).pc = s.pc := rfl
@[simp] theorem takeFault_status (info : FaultInfo) (s : State) : (takeFault info s).status = .halted := rfl
@[simp] theorem takeFault_fault (info : FaultInfo) (s : State) : (takeFault info s).fault = some ⟨faultKindOf info, s.pc, info⟩ := rfl
@[simp] theorem takeFault_out (info : FaultInfo) (s : State) : (takeFault info s).out = s.out := rfl

@[simp] theorem emit_mem (v : Byte) (s : State) : (emit v s).mem = s.mem := rfl
@[simp] theorem emit_x (v : Byte) (s : State) : (emit v s).x = s.x := rfl
@[simp] theorem emit_pc (v : Byte) (s : State) : (emit v s).pc = s.pc := rfl
@[simp] theorem emit_status (v : Byte) (s : State) : (emit v s).status = s.status := rfl
@[simp] theorem emit_fault (v : Byte) (s : State) : (emit v s).fault = s.fault := rfl
@[simp] theorem emit_out (v : Byte) (s : State) : (emit v s).out = s.out ++ [v] := rfl

@[simp] theorem advance_mem (w : Nat) (s : State) : (advance w s).mem = s.mem := rfl
@[simp] theorem advance_x (w : Nat) (s : State) : (advance w s).x = s.x := rfl
@[simp] theorem advance_pc (w : Nat) (s : State) : (advance w s).pc = s.pc + w := rfl
@[simp] theorem advance_status (w : Nat) (s : State) : (advance w s).status = s.status := rfl
@[simp] theorem advance_fault (w : Nat) (s : State) : (advance w s).fault = s.fault := rfl
@[simp] theorem advance_out (w : Nat) (s : State) : (advance w s).out = s.out := rfl

@[simp] theorem writeReg_mem (r : Fin 8) (v : Byte) (s : State) : (writeReg r v s).mem = s.mem := rfl
@[simp] theorem writeReg_x (r : Fin 8) (v : Byte) (s : State) : (writeReg r v s).x = setReg s.x r v := rfl
@[simp] theorem writeReg_pc (r : Fin 8) (v : Byte) (s : State) : (writeReg r v s).pc = s.pc := rfl
@[simp] theorem writeReg_status (r : Fin 8) (v : Byte) (s : State) : (writeReg r v s).status = s.status := rfl
@[simp] theorem writeReg_fault (r : Fin 8) (v : Byte) (s : State) : (writeReg r v s).fault = s.fault := rfl
@[simp] theorem writeReg_out (r : Fin 8) (v : Byte) (s : State) : (writeReg r v s).out = s.out := rfl

@[simp] theorem halt_mem (s : State) : (halt s).mem = s.mem := rfl
@[simp] theorem halt_x (s : State) : (halt s).x = s.x := rfl
@[simp] theorem halt_pc (s : State) : (halt s).pc = s.pc := rfl
@[simp] theorem halt_status (s : State) : (halt s).status = .halted := rfl
@[simp] theorem halt_fault (s : State) : (halt s).fault = s.fault := rfl
@[simp] theorem halt_out (s : State) : (halt s).out = s.out := rfl

@[simp] theorem reset_mem : State.reset.mem = [] := rfl
@[simp] theorem reset_x : State.reset.x = Vector.replicate 8 0 := rfl
@[simp] theorem reset_pc : State.reset.pc = 0 := rfl
@[simp] theorem reset_status : State.reset.status = .running := rfl
@[simp] theorem reset_fault : State.reset.fault = none := rfl
@[simp] theorem reset_out : State.reset.out = [] := rfl

@[simp] theorem withFetchWord_mem (s : State) (nbits w : Nat) : (s.withFetchWord nbits w).mem = putBytes s.mem s.pc (tableBytes nbits w) := rfl
@[simp] theorem withFetchWord_x (s : State) (nbits w : Nat) : (s.withFetchWord nbits w).x = s.x := rfl
@[simp] theorem withFetchWord_pc (s : State) (nbits w : Nat) : (s.withFetchWord nbits w).pc = s.pc := rfl
@[simp] theorem withFetchWord_status (s : State) (nbits w : Nat) : (s.withFetchWord nbits w).status = s.status := rfl
@[simp] theorem withFetchWord_fault (s : State) (nbits w : Nat) : (s.withFetchWord nbits w).fault = s.fault := rfl
@[simp] theorem withFetchWord_out (s : State) (nbits w : Nat) : (s.withFetchWord nbits w).out = s.out := rfl

end Sys2Proof.Machine
end

