-- ==== Sys2Proof/Laws/Exec.lean ====
section
/-! SUPPORT. What each meaning and each shared operation can answer, said once. -/

namespace Sys2Proof.Machine

/-- Raising a fault always answers the one state of R802. -/
theorem raise_next {info : FaultInfo} {s s' : State} : raise info s = .next s' ↔ s' = takeFault info s := by
  simp [raise, eq_comm]

/-- Narrowing under `wrap` always gives the low 8 bits. -/
theorem narrow_wrap (n : Nat) : narrow .wrap n = .ok (BitVec.ofNat 8 n) := rfl

/-- Whatever the parameter, a narrowing that gives a byte gives the low 8 bits. -/
theorem narrow_ok {ov : ArithOverflow} {n : Nat} {r : Byte} (h : narrow ov n = .ok r) : r = BitVec.ofNat 8 n := by
  unfold narrow at h
  split at h
  · simpa using h.symm
  split at h
  · simpa using h.symm
  · simp at h

/-- A unit operation that gives a register file: both indices name registers, the tag is supported, and only register a is
written, with the narrowed result of the old values. -/
theorem alu_ok {ov : ArithOverflow} {tag : Tag} {a b : Byte} {x x' : RegFile} (h : alu ov tag a b x = .ok x') :
    ∃ ra rb exact, regOperand a = .ok ra ∧ regOperand b = .ok rb ∧
      exactResult tag (getReg x ra) (getReg x rb) = some exact ∧
      narrow ov exact = .ok (BitVec.ofNat 8 exact) ∧ x' = setReg x ra (BitVec.ofNat 8 exact) := by
  unfold alu at h
  cases ha : regOperand a with
  | error i => simp [ha] at h
  | ok ra =>
    cases hb : regOperand b with
    | error i => simp [ha, hb] at h
    | ok rb =>
      cases he : exactResult tag (getReg x ra) (getReg x rb) with
      | none => simp [ha, hb, he] at h
      | some exact =>
        cases hn : narrow ov exact with
        | error f => simp [ha, hb, he, hn] at h
        | ok r =>
          obtain rfl := narrow_ok hn
          exact ⟨ra, rb, exact, rfl, rfl, he, hn, by simpa [ha, hb, he, hn] using h.symm⟩

/-- A unit operation that raises: index a, then index b, then the tag. -/
theorem alu_raised {ov : ArithOverflow} {tag : Tag} {a b : Byte} {x : RegFile} {info : FaultInfo}
    (h : alu ov tag a b x = .error (.raised info)) :
    regOperand a = .error info ∨
    (∃ ra, regOperand a = .ok ra ∧ regOperand b = .error info) ∨
    (∃ ra rb n, regOperand a = .ok ra ∧ regOperand b = .ok rb ∧ tag = .other n ∧ info = .tag tag) := by
  unfold alu at h
  cases ha : regOperand a with
  | error i => exact .inl (by simpa [ha] using h)
  | ok ra =>
    cases hb : regOperand b with
    | error i => exact .inr (.inl ⟨ra, rfl, by simpa [ha, hb] using h⟩)
    | ok rb =>
      cases tag with
      | add =>
        cases hn : narrow ov (exactSum (getReg x ra) (getReg x rb)) <;> simp [ha, hb, exactResult, hn] at h
      | multiply =>
        cases hn : narrow ov (exactProduct (getReg x ra) (getReg x rb)) <;> simp [ha, hb, exactResult, hn] at h
      | other n => exact .inr (.inr ⟨ra, rb, n, rfl, rfl, rfl, by simpa [ha, hb, exactResult] using h.symm⟩)

/-- What an instruction over the unit can answer when it gives a next state. -/
theorem execAlu_next {ov : ArithOverflow} {tag : Tag} {a b : Byte} {s s' : State} (h : execAlu ov tag a b s = .next s') :
    (∃ info, alu ov tag a b s.x = .error (.raised info) ∧ s' = takeFault info s) ∨
    (∃ x, alu ov tag a b s.x = .ok x ∧ s' = advance 3 { s with x := x }) := by
  unfold execAlu at h
  split at h
  · exact .inl ⟨_, ‹_›, raise_next.mp h⟩
  · simp at h
  · exact .inr ⟨_, ‹_›, by simpa using h.symm⟩

/-- Under `wrap` the unit never stops the model: MUL always answers a next state. -/
theorem alu_wrap_ne_model {tag : Tag} {a b : Byte} {x : RegFile} {f : Fault} : alu .wrap tag a b x ≠ .error (.model f) := by
  unfold alu
  repeat' split
  all_goals simp_all [narrow]

theorem execLdi_next {a b : Byte} {s s' : State} (h : execLdi a b s = .next s') :
    (∃ info, regOperand a = .error info ∧ s' = takeFault info s) ∨
    (∃ ra, regOperand a = .ok ra ∧ s' = advance 3 (writeReg ra b s)) := by
  unfold execLdi at h
  split at h
  · exact .inl ⟨_, ‹_›, raise_next.mp h⟩
  · exact .inr ⟨_, ‹_›, by simpa using h.symm⟩

theorem execPrn_next {a : Byte} {s s' : State} (h : execPrn a s = .next s') :
    (∃ info, regOperand a = .error info ∧ s' = takeFault info s) ∨
    (∃ ra, regOperand a = .ok ra ∧ s' = advance 2 (emit (getReg s.x ra) s)) := by
  unfold execPrn at h
  split at h
  · exact .inl ⟨_, ‹_›, raise_next.mp h⟩
  · exact .inr ⟨_, ‹_›, by simpa using h.symm⟩

/-- The product of MUL as the unit writes it. -/
theorem execMul_next {a b : Byte} {s s' : State} (h : execMul a b s = .next s') :
    (∃ info, (regOperand a = .error info ∨ ∃ ra, regOperand a = .ok ra ∧ regOperand b = .error info) ∧
      s' = takeFault info s) ∨
    (∃ ra rb, regOperand a = .ok ra ∧ regOperand b = .ok rb ∧
      s' = advance 3 (writeReg ra (BitVec.ofNat 8 (exactProduct (getReg s.x ra) (getReg s.x rb))) s)) := by
  obtain ⟨info, hr, rfl⟩ | ⟨x, ho, rfl⟩ := execAlu_next h
  · refine .inl ⟨info, ?_, rfl⟩
    obtain ha | ⟨ra, ha, hb⟩ | ⟨ra, rb, n, -, -, ht, -⟩ := alu_raised hr
    · exact .inl ha
    · exact .inr ⟨ra, ha, hb⟩
    · simp at ht
  · obtain ⟨ra, rb, e, ha, hb, he, -, rfl⟩ := alu_ok ho
    obtain rfl : exactProduct (getReg s.x ra) (getReg s.x rb) = e := by simpa [exactResult] using he
    exact .inr ⟨ra, rb, ha, hb, rfl⟩

end Sys2Proof.Machine
end

