-- ==== Sys2Proof/Laws/Memory.lean ====
section
/-! SUPPORT. The laws of memory: read after write, and that every operation keeps the canonical form. -/

namespace Sys2Proof.Machine

theorem memRead_of_lt {m : Memory} {addr : Nat} (h : addr < 256) : memRead m addr = .ok (cellAt m addr) := by
  simp [memRead, memSize, h]

theorem memRead_of_ge {m : Memory} {addr : Nat} (h : 256 ≤ addr) : memRead m addr = .error (.oob .memory addr) := by
  simp [memRead, memSize, Nat.not_lt.mpr h]

theorem cellsFrom_cons {lo k : Nat} {v : Byte} {rest : Memory} :
    cellsFrom lo ((k, v) :: rest) = true ↔ lo ≤ k ∧ k < 256 ∧ v ≠ 0#8 ∧ cellsFrom (k + 1) rest = true := by
  simp [cellsFrom, memSize, and_assoc]

theorem cellsFrom_mono {m : Memory} {lo lo' : Nat} (hle : lo' ≤ lo) (h : cellsFrom lo m = true) : cellsFrom lo' m = true := by
  cases m with
  | nil => rfl
  | cons cell rest =>
    obtain ⟨k, v⟩ := cell
    rw [cellsFrom_cons] at h ⊢
    exact ⟨hle.trans h.1, h.2⟩

theorem cellAt_eq_zero_of_lt {m : Memory} {lo a : Nat} (h : cellsFrom lo m = true) (ha : a < lo) : cellAt m a = 0#8 := by
  induction m generalizing lo with
  | nil => rfl
  | cons cell rest ih =>
    obtain ⟨k, v⟩ := cell
    obtain ⟨hlo, -, -, hrest⟩ := cellsFrom_cons.mp h
    rw [cellAt, if_neg (by omega)]
    exact ih hrest (by omega)

theorem cellsFrom_putCell {m : Memory} {lo a : Nat} {v : Byte} (h : cellsFrom lo m = true) (hlo : lo ≤ a) (ha : a < 256) :
    cellsFrom lo (putCell m a v) = true := by
  induction m generalizing lo with
  | nil =>
    by_cases hv : v = 0#8
    · simp [putCell, hv, cellsFrom]
    · simp only [putCell, if_neg hv]
      exact cellsFrom_cons.mpr ⟨hlo, ha, hv, rfl⟩
  | cons cell rest ih =>
    obtain ⟨k, w⟩ := cell
    obtain ⟨h1, h2, h3, h4⟩ := cellsFrom_cons.mp h
    unfold putCell
    by_cases hak : a < k
    · rw [if_pos hak]
      by_cases hv : v = 0#8
      · rwa [if_pos hv]
      · rw [if_neg hv]
        exact cellsFrom_cons.mpr ⟨hlo, ha, hv, cellsFrom_cons.mpr ⟨hak, h2, h3, h4⟩⟩
    · rw [if_neg hak]
      by_cases hk : a = k
      · rw [if_pos hk]
        by_cases hv : v = 0#8
        · rw [if_pos hv]
          exact cellsFrom_mono (by omega) h4
        · rw [if_neg hv]
          exact cellsFrom_cons.mpr ⟨hlo, ha, hv, hk ▸ h4⟩
      · rw [if_neg hk]
        exact cellsFrom_cons.mpr ⟨h1, h2, h3, ih h4 (by omega)⟩

theorem cellAt_putCell {m : Memory} {lo : Nat} (h : cellsFrom lo m = true) (a a' : Nat) (v : Byte) :
    cellAt (putCell m a v) a' = if a' = a then v else cellAt m a' := by
  induction m generalizing lo with
  | nil =>
    by_cases hv : v = 0#8
    · simp [putCell, hv, cellAt]
    · by_cases haa : a' = a
      · simp [putCell, hv, cellAt, haa]
      · simp [putCell, hv, cellAt, haa, Ne.symm haa]
  | cons cell rest ih =>
    obtain ⟨k, w⟩ := cell
    obtain ⟨-, -, -, h4⟩ := cellsFrom_cons.mp h
    unfold putCell
    by_cases hak : a < k
    · rw [if_pos hak]
      by_cases haa : a' = a
      · have hz : cellAt rest a = 0#8 := cellAt_eq_zero_of_lt h4 (by omega)
        by_cases hv : v = 0#8
        · simp [hv, cellAt, haa, hz, show ¬ k = a by omega]
        · simp [hv, cellAt, haa]
      · by_cases hv : v = 0#8
        · simp [hv, haa]
        · simp [hv, cellAt, haa, Ne.symm haa]
    · rw [if_neg hak]
      by_cases hk : a = k
      · subst hk
        rw [if_pos rfl]
        by_cases haa : a' = a
        · have hz : cellAt rest a = 0#8 := cellAt_eq_zero_of_lt h4 (by omega)
          by_cases hv : v = 0#8
          · simp [hv, haa, hz]
          · simp [hv, cellAt, haa]
        · by_cases hv : v = 0#8
          · simp [hv, cellAt, haa, Ne.symm haa]
          · simp [hv, cellAt, haa, Ne.symm haa]
      · rw [if_neg hk, cellAt, cellAt, ih h4]
        by_cases hka : k = a'
        · simp [hka, show ¬ a' = a by omega]
        · simp [hka]

/-- Writing one cell keeps the canonical form. -/
theorem putCell_wf {m : Memory} {a : Nat} {v : Byte} (h : m.wf = true) (ha : a < 256) : Memory.wf (putCell m a v) = true :=
  cellsFrom_putCell h (Nat.zero_le a) ha

/-- Read after write, at every address. -/
theorem cellAt_putCell_of_wf {m : Memory} (h : m.wf = true) (a a' : Nat) (v : Byte) :
    cellAt (putCell m a v) a' = if a' = a then v else cellAt m a' :=
  cellAt_putCell h a a' v

/-- Placing bytes keeps the canonical form. -/
theorem putBytes_wf {m : Memory} {addr : Nat} {bytes : List Byte} (h : m.wf = true) : Memory.wf (putBytes m addr bytes) = true := by
  induction bytes generalizing m addr with
  | nil => exact h
  | cons v rest ih =>
    by_cases ha : addr < 256
    · simp only [putBytes, memSize, if_pos ha]
      exact ih (putCell_wf h ha)
    · simp only [putBytes, memSize, if_neg ha]
      exact ih h

/-- A validated write that succeeds: what it can answer and what it is. -/
theorem memWrite_ok {m m' : Memory} {addr v : Nat} (h : memWrite m addr v = .ok m') :
    addr < 256 ∧ v < 256 ∧ m' = putCell m addr (BitVec.ofNat 8 v) := by
  unfold memWrite at h
  split at h
  · split at h
    · exact ⟨‹_›, ‹_›, by simpa using h.symm⟩
    · simp at h
  · simp at h

/-- A validated write keeps the canonical form. -/
theorem memWrite_wf {m m' : Memory} {addr v : Nat} (hm : m.wf = true) (h : memWrite m addr v = .ok m') : m'.wf = true := by
  obtain ⟨ha, -, rfl⟩ := memWrite_ok h
  exact putCell_wf hm ha

/-- Loading keeps the canonical form. -/
theorem loadCells_wf {m m' : Memory} {addr : Nat} {img : List Byte} (hm : m.wf = true) (h : loadCells m addr img = .ok m') :
    m'.wf = true := by
  induction img generalizing m addr with
  | nil => simpa [loadCells] using (by simpa [loadCells] using h : m = m') ▸ hm
  | cons v rest ih =>
    unfold loadCells at h
    split at h
    · simp at h
    · exact ih (memWrite_wf hm ‹_›) h

/-- Loading an image keeps the canonical form. -/
theorem loadState_wf {s s' : State} {img : List Byte} (hm : s.mem.wf = true) (h : loadState img s = .ok s') :
    s'.mem.wf = true := by
  unfold loadState at h
  split at h
  · simp at h
  · rename_i m hl
    obtain rfl : { s with mem := m } = s' := by simpa using h
    exact loadCells_wf hm hl

theorem withFetchWord_wf {s : State} {nbits w : Nat} (h : s.mem.wf = true) : (s.withFetchWord nbits w).mem.wf = true :=
  putBytes_wf h

/-- The memory of the reset state has the canonical form. -/
theorem reset_mem_wf : State.reset.mem.wf = true := rfl

end Sys2Proof.Machine
end

