-- ==== Sys2Proof/Laws/Output.lean ====
section
/-! SUPPORT. The output events of a step by what it did to the log, and the text of a longer log. -/

namespace Sys2Proof.Machine

/-- A step that leaves the log has no output event. -/
theorem outputEvents_eq_nil {before after : State} (h : after.out = before.out) : outputEvents before after = [] := by
  simp [outputEvents, h]

/-- The events of a step that appends to the log are what it appends. -/
theorem outputEvents_of_append {before after : State} {vs : List Byte} (h : after.out = before.out ++ vs) :
    outputEvents before after = vs := by
  simp [outputEvents, h]

/-- The text of a log is the text of its values, in their order. -/
theorem renderLog_append (log more : List Byte) : renderLog (log ++ more) = renderLog log ++ renderLog more := by
  induction log with
  | nil => rfl
  | cons v rest ih => simp [renderLog, ih]

end Sys2Proof.Machine
end

