-- ==== Sys2Proof/Laws/PerInstr.lean ====
section
/-! SUPPORT. Facts about every instruction as syntax, one lemma per constructor. -/

namespace Sys2Proof.Laws

/-- The encoder writes as many bytes as the decoder reads, under every opcode assignment, and at least one and at most
three (R300, R305). -/
def EncodedLength.Statement (i : Instr) : Prop :=
  ∀ c : Opcodes, (encode c i).length = i.length ∧ 1 ≤ i.length ∧ i.length ≤ 3

theorem EncodedLength.ldi (a b : Byte) : EncodedLength.Statement (.ldi a b) := fun _ => by
  simp [encode, Instr.length]

theorem EncodedLength.prn (a : Byte) : EncodedLength.Statement (.prn a) := fun _ => by
  simp [encode, Instr.length]

theorem EncodedLength.mul (a b : Byte) : EncodedLength.Statement (.mul a b) := fun _ => by
  simp [encode, Instr.length]

theorem EncodedLength.hlt (a : Byte) : EncodedLength.Statement (.hlt a) := fun _ => by
  simp [encode, Instr.length]

theorem EncodedLength.unknown (op : Byte) : EncodedLength.Statement (.unknown op) := fun _ => by
  simp [encode, Instr.length]

end Sys2Proof.Laws
end

