-- ==== Sys2Proof/Laws/Policy.lean ====
section
/-! SUPPORT. What the machine under the optional parameters can answer, said once. -/

namespace Sys2Proof.Machine

/-- An instruction that goes on under a value of `ARITH_OVERFLOW` does what it does by default. -/
theorem execUnder_next {ov : ArithOverflow} {i : Instr} {s s' : State} (h : execUnder ov i s = .next s') :
    exec i s = .next s' := by
  cases i with
  | mul a b =>
    obtain ⟨info, hr, rfl⟩ | ⟨x, ho, rfl⟩ := execAlu_next h
    · obtain ha | ⟨ra, ha, hb⟩ | ⟨_, _, _, -, -, ht, -⟩ := alu_raised hr
      · simp [exec, execMul, execAlu, alu, ha, raise]
      · simp [exec, execMul, execAlu, alu, ha, hb, raise]
      · simp at ht
    · obtain ⟨ra, rb, e, ha, hb, he, -, rfl⟩ := alu_ok ho
      simp [exec, execMul, execAlu, alu, ha, hb, he, narrow, defaultOverflow]
  | ldi a b => exact h
  | prn a => exact h
  | hlt a => exact h
  | unknown op => exact h

/-- Everything an instruction that goes on can do under both parameters: no unwritten register was read, the state is that of
`execUnder`, and the record is marked for an instruction with its indices in range. -/
theorem execTracked_next {cfg : Config} {i : Instr} {t t' : Tracked} (h : execTracked cfg i t = .next t') :
    unwrittenStop cfg.unwrittenRead t.written i = none ∧ execUnder cfg.arithOverflow i t.st = .next t'.st ∧
    t'.written = if i.regsInRange then markWritten t.written (regsWritten i) else t.written := by
  unfold execTracked at h
  split at h
  · simp at h
  · split at h
    · obtain rfl : _ = t' := by simpa using h
      exact ⟨‹_›, ‹_›, rfl⟩
    · simp at h
    · simp at h

/-- A step that goes on under both parameters started from RUNNING, and raised the fault of its fetch or ran the fetched
instruction. -/
theorem stepUnder_next {cfg : Config} {t t' : Tracked} (h : stepUnder cfg t = .next t') :
    t.st.status = .running ∧
    ((∃ info, fetchInstr cfg.opcodes t.st.mem t.st.pc = .error info ∧ t' = { t with st := takeFault info t.st }) ∨
     (∃ i, fetchInstr cfg.opcodes t.st.mem t.st.pc = .ok i ∧ execTracked cfg i t = .next t')) := by
  unfold stepUnder at h
  cases hs : t.st.status with
  | halted => simp [hs] at h
  | running =>
    refine ⟨rfl, ?_⟩
    cases hf : fetchInstr cfg.opcodes t.st.mem t.st.pc with
    | error info => exact .inl ⟨info, rfl, by simpa [hs, hf, eq_comm] using h⟩
    | ok i => exact .inr ⟨i, rfl, by simpa [hs, hf] using h⟩

/-- A mark is set exactly on the registers of the list that an index below 8 selects, and is never taken away. -/
theorem markWritten_iff {written : Vector Bool 8} {l : List Byte} {r : Fin 8} :
    (markWritten written l)[r] = true ↔ written[r] = true ∨ ∃ i ∈ l, i.toNat = r.val := by
  induction l generalizing written with
  | nil => simp [markWritten]
  | cons i rest ih =>
    cases hi : regOperand i with
    | error info =>
      have hr : i.toNat ≠ r.val := by
        have := (regOperand_error_iff.mp hi).1
        omega
      rw [show markWritten written (i :: rest) = markWritten written rest by simp [markWritten, hi], ih]
      simp [hr]
    | ok q =>
      rw [show markWritten written (i :: rest) = markWritten (written.set q true) rest by simp [markWritten, hi], ih]
      rw [regOperand_ok_iff] at hi
      by_cases hq : q.val = r.val <;> simp [hi, hq]

end Sys2Proof.Machine
end

