-- ==== Sys2Proof/Laws/Step.lean ====
section
/-! SUPPORT. What one step can do, said once: the inversion lemma that invariants and frames of the step cite. -/

namespace Sys2Proof.Machine

/-- A step from a running engine is a raised fetch fault or the instruction at the pc. -/
theorem stepWith_running {c : Opcodes} {s : State} (h : s.status = .running) :
    stepWith c s = match fetchInstr c s.mem s.pc with
      | .error info => raise info s
      | .ok i => exec i s := by
  cases s
  subst h
  rfl

/-- A step that gives a next state started from RUNNING, and raised the fault of its fetch or ran the fetched instruction. -/
theorem stepWith_next {c : Opcodes} {s s' : State} (h : stepWith c s = .next s') :
    s.status = .running ∧
    ((∃ info, fetchInstr c s.mem s.pc = .error info ∧ s' = takeFault info s) ∨
     (∃ i, fetchInstr c s.mem s.pc = .ok i ∧ exec i s = .next s')) := by
  cases hs : s.status with
  | halted => simp [stepWith, hs] at h
  | running =>
    rw [stepWith_running hs] at h
    refine ⟨rfl, ?_⟩
    cases hf : fetchInstr c s.mem s.pc with
    | error info =>
      rw [hf] at h
      exact .inl ⟨info, rfl, raise_next.mp h⟩
    | ok i =>
      rw [hf] at h
      exact .inr ⟨i, rfl, h⟩

/-- Everything an instruction can do: take a fault, or complete with the effect of its rule. -/
theorem exec_next {i : Instr} {s s' : State} (h : exec i s = .next s') :
    (∃ info, s' = takeFault info s ∧
      ((∃ op, i = .unknown op ∧ info = .opcode op) ∨
       (i.regsInRange = false ∧ ∃ r : Byte, 8 ≤ r.toNat ∧ info = .oob .register r.toNat))) ∨
    (∃ a b ra, i = .ldi a b ∧ regOperand a = .ok ra ∧ s' = advance 3 (writeReg ra b s)) ∨
    (∃ a ra, i = .prn a ∧ regOperand a = .ok ra ∧ s' = advance 2 (emit (getReg s.x ra) s)) ∨
    (∃ a b ra rb, i = .mul a b ∧ regOperand a = .ok ra ∧ regOperand b = .ok rb ∧
      s' = advance 3 (writeReg ra (BitVec.ofNat 8 (exactProduct (getReg s.x ra) (getReg s.x rb))) s)) ∨
    (∃ a, i = .hlt a ∧ s' = halt s) := by
  cases i with
  | ldi a b =>
    obtain ⟨info, he, rfl⟩ | ⟨ra, ha, rfl⟩ := execLdi_next h
    · obtain ⟨hge, rfl⟩ := regOperand_error_iff.mp he
      exact .inl ⟨_, rfl, .inr ⟨by simp [Instr.regsInRange, numRegs, hge], a, hge, rfl⟩⟩
    · exact .inr (.inl ⟨a, b, ra, rfl, ha, rfl⟩)
  | prn a =>
    obtain ⟨info, he, rfl⟩ | ⟨ra, ha, rfl⟩ := execPrn_next h
    · obtain ⟨hge, rfl⟩ := regOperand_error_iff.mp he
      exact .inl ⟨_, rfl, .inr ⟨by simp [Instr.regsInRange, numRegs, hge], a, hge, rfl⟩⟩
    · exact .inr (.inr (.inl ⟨a, ra, rfl, ha, rfl⟩))
  | mul a b =>
    obtain ⟨info, he | ⟨ra, -, he⟩, rfl⟩ | ⟨ra, rb, ha, hb, rfl⟩ := execMul_next h
    · obtain ⟨hge, rfl⟩ := regOperand_error_iff.mp he
      exact .inl ⟨_, rfl, .inr ⟨by simp [Instr.regsInRange, numRegs, hge], a, hge, rfl⟩⟩
    · obtain ⟨hge, rfl⟩ := regOperand_error_iff.mp he
      exact .inl ⟨_, rfl, .inr ⟨by simp [Instr.regsInRange, numRegs, hge], b, hge, rfl⟩⟩
    · exact .inr (.inr (.inr (.inl ⟨a, b, ra, rb, rfl, ha, hb, rfl⟩)))
  | hlt a => exact .inr (.inr (.inr (.inr ⟨a, rfl, by simpa [exec, execHlt, eq_comm] using h⟩)))
  | unknown op => exact .inl ⟨.opcode op, raise_next.mp h, .inl ⟨op, rfl, rfl⟩⟩

/-- The fault of a fetch names the first address at or above 256 that was read. -/
theorem fetchInstr_error {c : Opcodes} {m : Memory} {p : Nat} {info : FaultInfo} (h : fetchInstr c m p = .error info) :
    ∃ k, k < 3 ∧ 256 ≤ p + k ∧ (0 < k → p + (k - 1) < 256) ∧ info = .oob .memory (p + k) := by
  have read_error : ∀ {addr : Nat} {e : FaultInfo}, memRead m addr = .error e → 256 ≤ addr ∧ e = .oob .memory addr := by
    intro addr e he
    by_cases ha : addr < 256
    · simp [memRead_of_lt ha] at he
    · rw [memRead_of_ge (Nat.le_of_not_lt ha)] at he
      exact ⟨Nat.le_of_not_lt ha, by simpa using he.symm⟩
  have read_ok : ∀ {addr : Nat} {b : Byte}, memRead m addr = .ok b → addr < 256 := by
    intro addr b hb
    by_contra hn
    simp [memRead_of_ge (Nat.le_of_not_lt hn)] at hb
  obtain h0 | ⟨k, h0, h1⟩ | ⟨k, a, -, -, h1, h2⟩ := decodeFrom_error h
  · obtain ⟨hge, rfl⟩ := read_error h0
    exact ⟨0, by omega, hge, by omega, rfl⟩
  · obtain ⟨hge, rfl⟩ := read_error h1
    exact ⟨1, by omega, hge, fun _ => read_ok h0, rfl⟩
  · obtain ⟨hge, rfl⟩ := read_error h2
    exact ⟨2, by omega, hge, fun _ => read_ok h1, rfl⟩

end Sys2Proof.Machine
end

