-- ==== Sys2Proof/Tests/Slice0.lean ====
section
/-! SUPPORT. The model's own tests. Expected results are the spec's: a test names the vector of 95_test_vectors.md or the rule
it takes them from. `witness_<Name>` shows values that meet the hypotheses of the obligation of that name, at the boundary of
each of its clauses. -/

namespace Sys2Proof.Tests

open Sys2Proof.Machine

/-- A running engine with these bytes at `p`, these registers and pc `p`. -/
def engineAt (p : Nat) (bytes : List Byte) (x : RegFile) : State :=
  { State.reset with mem := putBytes [] p bytes, pc := p, x := x }

/-- Registers all 0. -/
def zeros : RegFile := Vector.replicate 8 0

/-- R0 and R1 given, the rest 0. -/
def regs01 (v0 v1 : Byte) : RegFile := #v[v0, v1, 0, 0, 0, 0, 0, 0]

/-- The next state of an outcome, if it is one. -/
def nextOf (o : Host.Outcome State Fault Refusal) : Option State :=
  match o with
  | .next s => some s
  | .fault _ => none
  | .refused _ => none

/-- The fault report a step leaves. -/
def reportOf (o : Host.Outcome State Fault Refusal) : Option FaultReport := (nextOf o).bind (fun s => s.fault)

/-! ### Well-formedness -/

/-- R307: a table opcode is no unknown opcode. -/
theorem test_wf_refuses_known_opcodes :
    Instr.wf Opcodes.default (.unknown 0x82) = false ∧ Instr.wf Opcodes.default (.unknown 0x47) = false ∧
    Instr.wf Opcodes.default (.unknown 0xA2) = false ∧ Instr.wf Opcodes.default (.unknown 0x01) = false := by decide

/-- R104, R304: an index of 8 names no register, in each register operand. -/
theorem test_regsInRange_refuses_index_8 :
    Instr.regsInRange (.ldi 8 0) = false ∧ Instr.regsInRange (.prn 8) = false ∧ Instr.regsInRange (.mul 8 0) = false ∧
    Instr.regsInRange (.mul 0 8) = false ∧ Instr.regsInRange (.mul 7 7) = true := by decide

/-! ### Decoding: words written out from R301, R302 and R306, the first byte in the lowest bits -/

/-- LDI R3, 23: byte 2 = 0b00010111, byte 1 = 0b00000011, byte 0 = 0b10000010. -/
theorem test_decode_ldi : decodeTableWord 24 0b00010111_00000011_10000010 = some (.ldi 3 23) := by decide

/-- PRN R7: byte 1 = 0b00000111, byte 0 = 0b01000111. -/
theorem test_decode_prn : decodeTableWord 16 0b00000111_01000111 = some (.prn 7) := by decide

/-- MUL R0, R1: byte 2 = 0b00000001, byte 1 = 0, byte 0 = 0b10100010. -/
theorem test_decode_mul : decodeTableWord 24 0b00000001_00000000_10100010 = some (.mul 0 1) := by decide

/-- HLT with operand byte 0xFF, which it keeps: byte 0 = 0b00000001. -/
theorem test_decode_hlt : decodeTableWord 16 0b11111111_00000001 = some (.hlt 0xFF) := by decide

/-- DEC-5 and DEC-6: the neighbours of the four opcodes are unknown. -/
theorem test_decode_unknown :
    [0x00, 0x02, 0x80, 0x83, 0x46, 0x45, 0xA3, 0xE2, 0xFF].all
      (fun n => decodeTableWord 8 n == some (.unknown (BitVec.ofNat 8 n))) = true := by decide

/-- R308, R404: an unknown opcode needs no operand byte, and every known one needs its own. -/
theorem test_decode_missing_bytes :
    (decode Opcodes.default [0xFF] matches .ok _) = true ∧ (decode Opcodes.default [0x01] matches .error (.missingByte 1)) = true ∧
    (decode Opcodes.default [0x82, 0] matches .error (.missingByte 2)) = true ∧
    (decode Opcodes.default [] matches .error (.missingByte 0)) = true := by decide

/-- R313: the bytes of each row. -/
theorem test_encode :
    encode Opcodes.default (.ldi 0 8) = [0x82, 0, 8] ∧ encode Opcodes.default (.prn 0) = [0x47, 0] ∧
    encode Opcodes.default (.mul 0 1) = [0xA2, 0, 1] ∧ encode Opcodes.default (.hlt 0) = [0x01, 0] := by decide

/-! ### Steps: 95_test_vectors.md -/

/-- SEQ-2: an LDI at 253 completes with pc = 256. -/
theorem test_ldi_at_253 :
    nextOf (step (engineAt 253 [0x82, 0x00, 0x05] zeros)) =
      some { engineAt 253 [0x82, 0x00, 0x05] zeros with x := regs01 5 0, pc := 256 } := by decide

/-- LDI-5: index 255 is reported whole. -/
theorem test_ldi_index_255 :
    nextOf (step (engineAt 0 [0x82, 0xFF, 0x01] zeros)) =
      some { engineAt 0 [0x82, 0xFF, 0x01] zeros with
        status := .halted, fault := some ⟨.outOfBoundsAccess, 0, .oob .register 255⟩ } := by decide

/-- The example of R510: with x[0] = 23 at p = 9, 23 is appended and pc = 11. -/
theorem test_prn_23 :
    nextOf (step (engineAt 9 [0x47, 0x00] (regs01 23 0))) =
      some { engineAt 9 [0x47, 0x00] (regs01 23 0) with out := [23], pc := 11 } := by decide

/-- SEQ-6: a PRN at 255 faults on its operand fetch and prints nothing. -/
theorem test_prn_at_255 :
    nextOf (step (engineAt 255 [0x47] zeros)) =
      some { engineAt 255 [0x47] zeros with
        status := .halted, fault := some ⟨.outOfBoundsAccess, 255, .oob .memory 256⟩ } := by decide

/-- MUL-5: 400 mod 256 = 144, and R1 is only read. -/
theorem test_mul_wraps :
    nextOf (step (engineAt 0 [0xA2, 0x00, 0x01] (regs01 200 2))) =
      some { engineAt 0 [0xA2, 0x00, 0x01] (regs01 200 2) with x := regs01 144 2, pc := 3 } := by decide

/-- PRI-2: of two bad indices the first operand's is reported. -/
theorem test_mul_first_bad_index :
    reportOf (step (engineAt 0 [0xA2, 0x09, 0x0C] zeros)) = some ⟨.outOfBoundsAccess, 0, .oob .register 9⟩ := by decide

/-- HLT-2: the operand is ignored and the pc stays. -/
theorem test_hlt :
    nextOf (step (engineAt 0 [0x01, 0xFF] zeros)) = some { engineAt 0 [0x01, 0xFF] zeros with status := .halted } := by decide

/-- SEQ-9 (decision D7): an HLT at 255 faults. -/
theorem test_hlt_at_255 :
    reportOf (step (engineAt 255 [0x01] zeros)) = some ⟨.outOfBoundsAccess, 255, .oob .memory 256⟩ := by decide

/-- UNK-2: registers and pc stay. -/
theorem test_unknown :
    nextOf (step (engineAt 40 [0xFF, 0x00, 0x00] (regs01 9 0))) =
      some { engineAt 40 [0xFF, 0x00, 0x00] (regs01 9 0) with
        status := .halted, fault := some ⟨.unknownOpcode, 40, .opcode 0xFF⟩ } := by decide

/-- SEQ-8: no operand fetch, so no memory fault at 255. -/
theorem test_unknown_at_255 :
    reportOf (step (engineAt 255 [0xFF] zeros)) = some ⟨.unknownOpcode, 255, .opcode 0xFF⟩ := by decide

/-- S5: the first step from reset with an empty image. -/
theorem test_first_step_from_reset :
    nextOf (step State.reset) =
      some { State.reset with status := .halted, fault := some ⟨.unknownOpcode, 0, .opcode 0x00⟩ } := by decide

/-! ### The arithmetic unit and the parameters -/

/-- ALU-3, ALU-6 and ALU-7. -/
theorem test_alu :
    (alu .wrap .add 0 1 (regs01 255 255)).toOption = some (regs01 254 255) ∧
    (alu .wrap (.other 2) 0 1 (regs01 5 6) matches .error (.raised (.tag (.other 2)))) = true ∧
    (alu .wrap (.other 3) 8 1 zeros matches .error (.raised (.oob .register 8))) = true := by decide

/-- R601: the tag codes. -/
theorem test_tag_codes :
    tagOfCode 0 = .add ∧ tagOfCode 1 = .multiply ∧ tagOfCode 2 = .other 2 ∧ tagOfCode 3 = .other 3 := by decide

/-- MUL-13 and the `fault` column of PRN-4. -/
theorem test_optional_faults :
    (execUnder .fault (.mul 0 1) { State.reset with x := regs01 16 16 } matches .fault (.arithOverflow 256)) = true ∧
    (execTracked ⟨Opcodes.default, .wrap, .fault⟩ (.prn 6) trackedReset matches .fault (.unwrittenRead 6)) = true := by decide

/-! ### Loader, output, assembler -/

/-- LOAD-1, LOAD-2, LOAD-3 and LOAD-7. -/
theorem test_loader_text :
    (loadText (some ["10000010 # LDI R0,8".toList])).toOption = some [0x82] ∧
    (loadText (some ["".toList, "# comment only".toList, "   00000001   ".toList])).toOption = some [0x01] ∧
    (loadText (some ["000000001".toList, "1 trailing words".toList])).toOption = some [0x01, 0x01] := by decide

/-- LOAD-4, LOAD-5 and LOAD-8. -/
theorem test_loader_text_fails :
    (loadText (some ["100000000".toList])).toOption = none ∧ (loadText (some ["10102".toList])).toOption = none ∧
    (loadText none).toOption = none := by decide

/-- OUT-1, OUT-3 and OUT-4. -/
theorem test_render : renderLog [0, 72, 255] = "0\n72\n255\n".toList := by decide

/-- R312 and R313: program P1's lines, the long names, and refused operands. -/
theorem test_assembler :
    assemble Opcodes.default ["LDI R0, 8".toList, "MULTIPLY R0, R1".toList, "PRN R0".toList, "HLT".toList] =
      some [0x82, 0, 8, 0xA2, 0, 1, 0x47, 0, 1, 0] ∧
    parseAsm "LDI R7, 0b1010".toList = some (.ldi 7 10) ∧ parseAsm "PRN R8".toList = none ∧
    parseAsm "LDI R0, 256".toList = none := by decide

/-! ### Witnesses of the obligations' hypotheses -/

theorem witness_DecodeOfEncodeIsTheInstruction :
    Instr.wf Opcodes.default (.ldi 255 0) = true ∧ Instr.wf Opcodes.default (.unknown 0) = true := by decide

theorem witness_EncodeOfDecodeIsTheBytes : decode Opcodes.default [0x82, 8, 1, 7] = .ok (.ldi 8 1, [7]) := by rfl

theorem witness_DecoderAnswersOnlyForItsOwnByte :
    Opcodes.default.decodeOpcode 0x82 = some (.ldi, 3) ∧ Opcodes.default.decodeOpcode 0x47 = some (.prn, 2) ∧
    Opcodes.default.decodeOpcode 0xA2 = some (.mul, 3) ∧ Opcodes.default.decodeOpcode 0x01 = some (.hlt, 2) ∧
    Opcodes.default.decodeOpcode 0x00 = none := by decide

theorem witness_FormatsF2AndF3 :
    (254 + 1 < 256 ∧ cellAt [(254, 0x47)] 254 = Opcodes.default.prn) ∧
    (254 + 1 < 256 ∧ cellAt [(254, 0x01)] 254 = Opcodes.default.hlt) ∧
    (253 + 2 < 256 ∧ cellAt [(253, 0x82)] 253 = Opcodes.default.ldi) ∧
    (253 + 2 < 256 ∧ cellAt [(253, 0xA2)] 253 = Opcodes.default.mul) := by decide

theorem witness_MemoryWriteReadRoundTrip :
    Memory.wf [(7, 1)] = true ∧ (255 < 256 ∧ 255 < 256) ∧ 256 ≤ 256 ∧ (255 < 256 ∧ 256 ≤ 256) := by decide

theorem witness_EqualReadsAreEqualMemories :
    Memory.wf [(0, 1), (255, 2)] = true ∧ Memory.wf (putBytes [(255, 2)] 0 [1]) = true ∧
    ∀ addr, addr < 256 → (memRead [(0, 1), (255, 2)] addr).toOption = (memRead (putBytes [(255, 2)] 0 [1]) addr).toOption := by
  refine ⟨by decide, by decide, fun _ _ => rfl⟩

theorem witness_RegistersAreIndependent : (7 : Fin 8) ≠ 0 := by decide

/-- Each form, at the indices 8 and 255, MUL with two bad indices among them. -/
theorem witness_RegisterIndexIsNeverMasked :
    8 ≤ (8 : Byte).toNat ∧ 8 ≤ (255 : Byte).toNat ∧
    (∃ b, Instr.ldi 8 9 = .ldi 8 b) ∧ Instr.prn 8 = .prn 8 ∧ (∃ b, Instr.mul 255 8 = .mul 255 b) ∧
    (∃ a : Byte, a.toNat < 8 ∧ Instr.mul 7 8 = .mul a 8) :=
  ⟨by decide, by decide, ⟨9, rfl⟩, rfl, ⟨8, rfl⟩, 7, by decide, rfl⟩

/-- For `LdiCompletes`, `PrnCompletes`, `MulCompletes`, `AluFollowsR602`, `UnsupportedTagIsFatal`. -/
theorem witness_indices_in_range : (0 : Byte).toNat < 8 ∧ (7 : Byte).toNat < 8 ∧ ¬ (8 : Byte).toNat < 8 := by decide

theorem witness_InstructionFrame :
    (∃ s', exec (.ldi 7 1) State.reset = .next s') ∧ (∃ s', exec (.hlt 0) State.reset = .next s') ∧
    writesReg (.ldi 7 1) 6 = false ∧ Instr.regsInRange (.ldi 7 1) = true := by
  refine ⟨⟨_, rfl⟩, ⟨_, rfl⟩, by decide, by decide⟩

/-- A completing MUL, a faulting one with a good first index, and a fetch that faults. -/
theorem witness_RegisterAccessFollowsR103 :
    (∃ s', exec (.mul 0 0) { State.reset with x := regs01 5 6 } = .next s') ∧
    (∀ r : Fin 8, readsReg (.mul 0 0) r = true → getReg (regs01 5 9) r = getReg (regs01 5 6) r) ∧
    regs01 5 9 ≠ regs01 5 6 ∧ writesReg (.mul 0 0) 0 = true ∧ Instr.regsInRange (.mul 0 0) = true ∧
    (∃ s', exec (.mul 7 8) State.reset = .next s') ∧ writesReg (.mul 7 8) 7 = true ∧ Instr.regsInRange (.mul 7 8) = false ∧
    (engineAt 254 [0x82, 0] zeros).status = .running ∧
    fetchInstr Opcodes.default (engineAt 254 [0x82, 0] zeros).mem 254 = .error (.oob .memory 256) := by
  refine ⟨⟨_, rfl⟩, by decide, by decide, by decide, by decide, ⟨_, rfl⟩, by decide, by decide, rfl, rfl⟩

/-- For `LdiStepFollowsR500`: each clause, at 255, 254 and 253, with indices 7 and 8. -/
theorem witness_LdiStepFollowsR500 :
    (cellAt (engineAt 255 [0x82] zeros).mem 255 = Opcodes.default.ldi) ∧
    (cellAt (engineAt 254 [0x82, 0] zeros).mem 254 = Opcodes.default.ldi) ∧
    (engineAt 253 [0x82, 7, 255] zeros).pc < 254 ∧ cellAt (engineAt 253 [0x82, 7, 255] zeros).mem 254 = 7 ∧
    cellAt (engineAt 253 [0x82, 8, 255] zeros).mem 254 = 8 ∧ (engineAt 253 [0x82, 8, 255] zeros).status = .running := by decide

theorem witness_PrnStepFollowsR510 :
    (cellAt (engineAt 255 [0x47] zeros).mem 255 = Opcodes.default.prn) ∧
    (engineAt 254 [0x47, 7] zeros).pc < 255 ∧ cellAt (engineAt 254 [0x47, 7] zeros).mem 255 = 7 ∧
    cellAt (engineAt 254 [0x47, 8] zeros).mem 255 = 8 ∧ (engineAt 254 [0x47, 8] zeros).status = .running := by decide

theorem witness_MulStepFollowsR620 :
    (cellAt (engineAt 255 [0xA2] zeros).mem 255 = Opcodes.default.mul) ∧
    (cellAt (engineAt 254 [0xA2, 0] zeros).mem 254 = Opcodes.default.mul) ∧
    (engineAt 253 [0xA2, 7, 8] zeros).pc < 254 ∧ cellAt (engineAt 253 [0xA2, 7, 8] zeros).mem 254 = 7 ∧
    cellAt (engineAt 253 [0xA2, 7, 8] zeros).mem 255 = 8 ∧ cellAt (engineAt 253 [0xA2, 8, 7] zeros).mem 254 = 8 := by decide

theorem witness_HltStepFollowsR700 :
    (engineAt 254 [0x01, 9] zeros).status = .running ∧ cellAt (engineAt 254 [0x01, 9] zeros).mem 254 = Opcodes.default.hlt ∧
    cellAt (engineAt 255 [0x01] zeros).mem 255 = Opcodes.default.hlt := by decide

theorem witness_UnknownStepFollowsR403 :
    (engineAt 255 [0xFF] zeros).status = .running ∧ (engineAt 255 [0xFF] zeros).pc < 256 ∧
    cellAt (engineAt 255 [0xFF] zeros).mem 255 = 0xFF ∧ Opcodes.default.isUnknown 0xFF = true := by decide

theorem witness_AluReadsTwoRegistersAndWritesOne :
    alu .wrap .multiply 0 0 (regs01 5 6) = .ok (setReg (regs01 5 6) 0 25) ∧
    (∀ r : Fin 8, r.val = (0 : Byte).toNat ∨ r.val = (0 : Byte).toNat → getReg (regs01 5 9) r = getReg (regs01 5 6) r) := by
  refine ⟨rfl, by decide⟩

/-- For `NoStepReportsUnsupportedOperation` and `FaultStepWritesOnlyTheReport`. -/
theorem witness_fault_step :
    ∃ s' f, stepWith Opcodes.default State.reset = .next s' ∧ State.reset.fault = none ∧ s'.fault = some f :=
  ⟨_, _, rfl, rfl, rfl⟩

theorem witness_OverflowFaultStopsExactlyOnOverflow :
    (regs01 15 17)[0].toNat * (regs01 15 17)[1].toNat < 256 ∧ 256 ≤ (regs01 16 16)[0].toNat * (regs01 16 16)[1].toNat := by decide

theorem witness_OptionalFaultsOnlyStop :
    (∃ t', stepUnder ⟨Opcodes.default, .fault, .fault⟩ trackedReset = .next t') ∧ trackedReset.st.status = .running :=
  ⟨⟨_, rfl⟩, rfl⟩

/-- Both marks for either operand, the indices 7 and 8, and a MUL that goes on under the other parameter and one that stops. -/
theorem witness_UnwrittenReadStopsPrnAndMul :
    trackedReset.written[7] = false ∧ (markWritten trackedReset.written [7])[7] = true ∧
    (markWritten trackedReset.written [7])[0] = false ∧ (7 : Byte).toNat < 8 ∧ 8 ≤ (8 : Byte).toNat ∧
    (∃ s, execUnder .fault (.mul 0 1) { State.reset with x := regs01 15 17 } = .next s) ∧
    execUnder .fault (.mul 0 1) { State.reset with x := regs01 16 16 } = .fault (.arithOverflow 256) :=
  ⟨by decide, by decide, by decide, by decide, by decide, ⟨_, rfl⟩, rfl⟩

theorem witness_StepRunsTheDecodedInstruction :
    (engineAt 254 [0x47, 7] zeros).status = .running ∧
    decode Opcodes.default (bytesFrom (engineAt 254 [0x47, 7] zeros).mem 254) = .ok (.prn 7, []) := ⟨rfl, rfl⟩

theorem witness_FetchPastTheEndFaults :
    { State.reset with pc := 256 }.status = .running ∧ 256 ≤ { State.reset with pc := 256 }.pc := by decide

theorem witness_HaltedEngineTakesNoStep : (halt State.reset).status = .halted := rfl

/-- For `StepIsTotalWhileRunning` and `FaultPriorityFollowsR804`: a failing check and none. -/
theorem witness_FaultPriorityFollowsR804 :
    State.reset.status = .running ∧ firstFailedCheck Opcodes.default State.reset.mem 0 = some (.opcode 0) ∧
    firstFailedCheck Opcodes.default (engineAt 253 [0xA2, 7, 7] zeros).mem 253 = none ∧
    firstFailedCheck Opcodes.default (engineAt 254 [0x82, 9] zeros).mem 254 = some (.oob .memory 256) ∧
    firstFailedCheck Opcodes.default (engineAt 253 [0xA2, 7, 8] zeros).mem 253 = some (.oob .register 8) := by decide

/-- For `PcSequencerFollowsR406`, `StepNeverWritesMemory`, `OutputLogGrowsOnlyByPrn`, `NoStepReadsTheLogOrTheReport`: a step
that leaves the engine running and one that halts it. -/
theorem witness_running_and_halting_step :
    (∃ s', stepWith Opcodes.default (engineAt 254 [0x47, 7] zeros) = .next s' ∧ s'.status = .running ∧ s'.pc = 256) ∧
    (∃ s', stepWith Opcodes.default (engineAt 254 [0x47, 8] zeros) = .next s' ∧ s'.status = .halted) ∧
    fetchInstr Opcodes.default (engineAt 254 [0x47, 7] zeros).mem 254 = .ok (.prn 7) :=
  ⟨⟨_, rfl, rfl, rfl⟩, ⟨_, rfl, rfl⟩, rfl⟩

/-- For `PcSequencerFollowsR406` and `OutputPulsesExactlyOnACompletedPrn`: an LDI and a MUL that go on, an HLT, a fetch that
faults. -/
theorem witness_steps_of_each_kind :
    (∃ s', stepWith Opcodes.default (engineAt 253 [0x82, 7, 1] zeros) = .next s' ∧ s'.status = .running ∧ s'.pc = 256) ∧
    (∃ s', stepWith Opcodes.default (engineAt 253 [0xA2, 7, 7] zeros) = .next s' ∧ s'.status = .running ∧ s'.pc = 256) ∧
    (∃ s', stepWith Opcodes.default (engineAt 254 [0x01, 0] zeros) = .next s' ∧ s'.status = .halted) ∧
    (∃ s', stepWith Opcodes.default (engineAt 255 [0x47] zeros) = .next s' ∧ s'.status = .halted) ∧
    (∀ a, fetchInstr Opcodes.default (engineAt 253 [0x82, 7, 1] zeros).mem 253 ≠ .ok (.prn a)) :=
  ⟨⟨_, rfl, rfl, rfl⟩, ⟨_, rfl, rfl, rfl⟩, ⟨_, rfl, rfl⟩, ⟨_, rfl, rfl⟩, fun _ h => nomatch h⟩

theorem witness_CleanEndComesOnlyFromHlt :
    ∃ s', stepWith Opcodes.default (engineAt 254 [0x01, 9] zeros) = .next s' ∧ CleanEnd s' := ⟨_, rfl, rfl, rfl⟩

/-- A finished engine, a step that leaves a report, and a step into HALTED by an HLT. -/
theorem witness_HaltedIsTerminal :
    (Engine.mk (halt State.reset) .finished).st.status = .halted ∧
    (∃ s', stepWith Opcodes.default State.reset = .next s' ∧ s'.fault ≠ State.reset.fault ∧ s'.status = .halted) ∧
    (∃ s', stepWith Opcodes.default (engineAt 254 [0x01, 9] zeros) = .next s' ∧ s'.status = .halted) :=
  ⟨rfl, ⟨_, rfl, by decide, rfl⟩, _, rfl, rfl⟩

/-- For `EveryStepKeepsTheInvariant` and `EveryRunEndsWithin129Steps`: a state other than reset, and its step. -/
theorem witness_EveryStepKeepsTheInvariant :
    LegalState Opcodes.default (engineAt 253 [0x82, 7, 255] zeros) ∧
    ∃ s', step (engineAt 253 [0x82, 7, 255] zeros) = .next s' :=
  ⟨⟨by decide, by decide, fun _ => rfl, fun _ h => nomatch h⟩, _, rfl⟩

theorem witness_ResetMeetsTheInvariant : ∃ s, loadState [0x82, 0x00, 0x08] State.reset = .ok s := ⟨_, rfl⟩

/-- For `LoadingFollowsR906`, `LoadedImageRunsToItsEnd`, `PinWritesAreTheLoad` and `OversizedImageFailsTheLoad`. -/
theorem witness_image_lengths :
    (List.replicate 256 (1 : Byte)).length ≤ 256 ∧ (List.replicate 256 (1 : Byte)) ≠ [] ∧
    256 < (List.replicate 257 (1 : Byte)).length := by
  refine ⟨List.length_replicate.le, fun h => ?_, ?_⟩
  · exact absurd (congrArg List.length h) (by rw [List.length_replicate]; decide)
  · rw [List.length_replicate]
    decide

/-- A text that does not open, and an image of 257 bytes. -/
theorem witness_FailedLoadNeverRuns :
    (∃ e', loadSource none construct = (e', some (.load .cannotOpen)) ∧ e'.phase = .failed) ∧
    (∃ e', loadImage (List.replicate 257 0) construct = (e', some (.load (.addressOutOfRange 256))) ∧ e'.phase = .failed) :=
  ⟨⟨_, rfl, rfl⟩, _, rfl, rfl⟩

theorem witness_InterfaceKeepsItsOrder :
    (loadImage [] construct).2 = none ∧ (loadImage [] construct).1.phase = .loaded ∧
    ∃ s, observe (Engine.mk State.reset .finished) = .ok s := ⟨rfl, rfl, _, rfl⟩

/-- R116: the codes of `fault_kind`, `fault_space` and `fault_info`. -/
theorem witness_FaultPinsFollowR116 :
    (pinsOut State.reset (takeFault (.oob .memory 256) State.reset)).faultKind = some 1 ∧
    (pinsOut State.reset (takeFault (.oob .memory 256) State.reset)).faultSpace = some 0 ∧
    (pinsOut State.reset (takeFault (.oob .register 8) State.reset)).faultSpace = some 1 ∧
    (pinsOut State.reset (takeFault (.opcode 0xFF) State.reset)).faultSpace = none ∧
    (pinsOut State.reset (takeFault (.opcode 0xFF) State.reset)).faultInfo = some 255 ∧
    (pinsOut State.reset (takeFault (.tag (.other 3)) State.reset)).faultInfo = some 3 := by decide

theorem witness_DecimalDigitsReadBack : (decimalDigits 0).head? = some '0' ∧ (decimalDigits 255).length = 3 := by decide

theorem witness_RenderedLogIsFaithful : renderLog [1, 23] = renderLog [1, 23] ∧ renderLog [1, 23] ≠ renderLog [12, 3] := by decide

theorem witness_AssemblyRoundTrip : (asmText (.ldi 7 255)).isSome = true ∧ (asmText (.hlt 0)).isSome = true := by decide

theorem witness_PlacedWordIsRunNext :
    { State.reset with pc := 253 }.status = .running ∧ { State.reset with pc := 253 }.mem.wf = true ∧
    decodeTableWord 24 0x170382 = some (.ldi 3 23) := by decide

/-- R116: a PRN of 23 pulses with 23, and an HLT does not pulse. -/
theorem witness_OutputPulsesExactlyOnACompletedPrn :
    (nextOf (stepWith Opcodes.default (engineAt 9 [0x47, 0x00] (regs01 23 0)))).map
      (fun s => ((pinsOut (engineAt 9 [0x47, 0x00] (regs01 23 0)) s).outValid,
        (pinsOut (engineAt 9 [0x47, 0x00] (regs01 23 0)) s).outData)) = some (true, some 23) ∧
    (nextOf (stepWith Opcodes.default (engineAt 0 [0x01, 0x00] zeros))).map
      (fun s => (pinsOut (engineAt 0 [0x01, 0x00] zeros) s).outValid) = some false := by decide

/-- An LDI that goes on, a MUL that faults on its second index, and a fetch that faults. -/
theorem witness_WrittenRecordFollowsLdiAndMul :
    (∃ t', execTracked defaultConfig (.ldi 7 1) trackedReset = .next t' ∧ t'.written[7] = true) ∧
    (∃ t', execTracked ⟨Opcodes.default, .wrap, .fault⟩ (.mul 7 8) trackedReset = .next t' ∧ t'.written[7] = false) ∧
    fetchInstr Opcodes.default ({ State.reset with pc := 256 } : State).mem 256 = .error (.oob .memory 256) ∧
    ∃ t', stepUnder defaultConfig { trackedReset with st := { State.reset with pc := 256 } } = .next t' :=
  ⟨⟨_, rfl, rfl⟩, ⟨_, rfl, rfl⟩, rfl, _, rfl⟩

end Sys2Proof.Tests
end

section
/-! PROOFS of the statements about the state (10_state.md). -/

namespace Sys2Proof.Machine

/-- What a step does to the output log (R108), and how the outcome is told apart: it completes a PRN, appends the register's value
and leaves the engine running; or it fetched no PRN, or ended in HALTED, and leaves the log. -/
theorem stepWith_out {c : Opcodes} {s s' : State} (h : stepWith c s = .next s') :
    (∃ a ra, fetchInstr c s.mem s.pc = .ok (.prn a) ∧ regOperand a = .ok ra ∧ s'.status = .running ∧
      s'.out = s.out ++ [getReg s.x ra]) ∨
    (((∀ a, fetchInstr c s.mem s.pc ≠ .ok (.prn a)) ∨ s'.status = .halted) ∧ s'.out = s.out) := by
  obtain ⟨hrun, ⟨info, -, rfl⟩ | ⟨i, hf, he⟩⟩ := stepWith_next h
  · exact .inr ⟨.inr rfl, rfl⟩
  obtain ⟨info, rfl, -⟩ | ⟨a, b, ra, rfl, -, rfl⟩ | ⟨a, ra, rfl, ha, rfl⟩ | ⟨a, b, ra, rb, rfl, -, -, rfl⟩ | ⟨a, rfl, rfl⟩ :=
    exec_next he
  case inl => exact .inr ⟨.inr rfl, rfl⟩
  case inr.inl => exact .inr ⟨.inl (by simp [hf]), rfl⟩
  case inr.inr.inl => exact .inl ⟨a, ra, hf, ha, hrun, rfl⟩
  case inr.inr.inr.inl => exact .inr ⟨.inl (by simp [hf]), rfl⟩
  case inr.inr.inr.inr => exact .inr ⟨.inr rfl, rfl⟩

/-- An index that selects a register reads the cell of the register file at that index. -/
theorem getReg_of_regOperand {a : Byte} {ra : Fin 8} (h : regOperand a = .ok ra) (x : RegFile) :
    ∃ hlt : a.toNat < 8, getReg x ra = x[a.toNat]'hlt := by
  have ha : a.toNat = ra.val := regOperand_ok_iff.mp h
  exact ⟨ha ▸ ra.isLt, by simp [getReg, ha]⟩

/-- The text of a log with one more value is the old text and that value's line. -/
theorem renderLog_append_singleton (log : List Byte) (v : Byte) : renderLog (log ++ [v]) = renderLog log ++ renderValue v := by
  simp [renderLog_append, renderLog]

/-- Settles O39: both clauses are the two outcomes of `stepWith_out`, told apart by the fetched instruction and the run state. -/
theorem outputLogGrowsOnlyByPrn : Obligations.OutputLogGrowsOnlyByPrn := by
  unfold Obligations.OutputLogGrowsOnlyByPrn
  intro c s s' hstep
  obtain ⟨a, ra, hf, ha, hrun, hout⟩ | ⟨hno, hout⟩ := stepWith_out hstep
  case inl =>
    refine ⟨fun a' hf' _ => ?_, fun hno => ?_⟩
    · obtain rfl : a = a' := by simpa [hf] using hf'
      obtain ⟨hlt, hval⟩ := getReg_of_regOperand ha s.x
      rw [hval] at hout
      exact ⟨hlt, hout, by rw [hout, renderLog_append_singleton]⟩
    · obtain hno | hhalt := hno
      · exact absurd hf (hno a)
      · simp [hrun] at hhalt
  case inr =>
    refine ⟨fun a hf hrun => ?_, fun _ => hout⟩
    obtain hno | hhalt := hno
    · exact absurd hf (hno a)
    · simp [hrun] at hhalt

end Sys2Proof.Machine
end

section
/-! PROOFS of the statements about the memory (20_memory.md). -/

namespace Sys2Proof.Machine

/-- Settles O8: the two clauses are the two laws of `memRead`, at and above the bound of 256 and below it. -/
theorem memoryReadNeverWraps : Obligations.MemoryReadNeverWraps := by
  unfold Obligations.MemoryReadNeverWraps
  exact fun _ _ => ⟨memRead_of_ge, memRead_of_lt⟩

end Sys2Proof.Machine
end

section
/-! PROOFS of the statements about the encoding (30_encoding.md). -/

namespace Sys2Proof

/-- The opcode table answers a kind, with that kind's own width, exactly for that kind's opcode byte (R305). -/
theorem Opcodes.decodeOpcode_eq_some_iff {c : Opcodes} {op : Byte} {k : Kind} :
    c.decodeOpcode op = some (k, k.width) ↔ op = c.byteOf k := by
  constructor
  · exact fun h => (Opcodes.decodeOpcode_some h).1
  · rintro rfl
    exact c.decodeOpcode_byteOf k

/-- Settles O3: the four arms are `decodeOpcode_eq_some_iff` at the four kinds, and NONE is the unknown opcode. -/
theorem decoderAnswersOnlyForItsOwnByte : Obligations.DecoderAnswersOnlyForItsOwnByte := by
  unfold Obligations.DecoderAnswersOnlyForItsOwnByte
  intro c op
  have arm : ∀ k : Kind, c.decodeOpcode op = some (k, k.width) ↔ op = c.byteOf k :=
    fun _ => Opcodes.decodeOpcode_eq_some_iff
  exact ⟨arm .ldi, arm .prn, arm .mul, arm .hlt, Opcodes.decodeOpcode_none_iff.trans Opcodes.isUnknown_iff,
    fun _ _ => Opcodes.decodeOpcode_some⟩

/-- Format F2 (R301): a kind of width 2 takes its opcode and `operand_a`, and no third byte. -/
theorem decodeFrom_of_width_two {ε : Type} {c : Opcodes} {fetch : Nat → Except ε Byte} {k : Kind} {a : Byte}
    (hk : k.width = 2) (h0 : fetch 0 = .ok (c.byteOf k)) (h1 : fetch 1 = .ok a) :
    decodeFrom c fetch = .ok (k.instr a 0) := by
  simp [decodeFrom, h0, h1, Opcodes.decodeOpcode_byteOf, hk]

/-- Format F3 (R302): a kind of width 3 takes its opcode, `operand_a` and `operand_b`. -/
theorem decodeFrom_of_width_three {ε : Type} {c : Opcodes} {fetch : Nat → Except ε Byte} {k : Kind} {a b : Byte}
    (hk : k.width = 3) (h0 : fetch 0 = .ok (c.byteOf k)) (h1 : fetch 1 = .ok a) (h2 : fetch 2 = .ok b) :
    decodeFrom c fetch = .ok (k.instr a b) := by
  simp [decodeFrom, h0, h1, h2, Opcodes.decodeOpcode_byteOf, hk]

end Sys2Proof

namespace Sys2Proof.Machine

/-- Format F2 in memory: opcode at `p`, `operand_a` at `p + 1`. -/
theorem fetchInstr_of_width_two {c : Opcodes} {m : Memory} {p : Nat} {k : Kind} (hk : k.width = 2)
    (hp : p + 1 < 256) (hop : cellAt m p = c.byteOf k) :
    fetchInstr c m p = .ok (k.instr (cellAt m (p + 1)) 0) :=
  decodeFrom_of_width_two hk (hop ▸ memRead_of_lt (by omega)) (memRead_of_lt hp)

/-- Format F3 in memory: opcode at `p`, `operand_a` at `p + 1`, `operand_b` at `p + 2`. -/
theorem fetchInstr_of_width_three {c : Opcodes} {m : Memory} {p : Nat} {k : Kind} (hk : k.width = 3)
    (hp : p + 2 < 256) (hop : cellAt m p = c.byteOf k) :
    fetchInstr c m p = .ok (k.instr (cellAt m (p + 1)) (cellAt m (p + 2))) :=
  decodeFrom_of_width_three hk (hop ▸ memRead_of_lt (by omega)) (memRead_of_lt (by omega)) (memRead_of_lt hp)

/-- Settles O4: PRN and HLT are the kinds of width 2, LDI and MUL those of width 3. -/
theorem formatsF2AndF3 : Obligations.FormatsF2AndF3 := by
  unfold Obligations.FormatsF2AndF3
  intro c m p
  exact ⟨fetchInstr_of_width_two (k := .prn) rfl, fetchInstr_of_width_two (k := .hlt) rfl,
    fetchInstr_of_width_three (k := .ldi) rfl, fetchInstr_of_width_three (k := .mul) rfl⟩

end Sys2Proof.Machine
end

section
/-! PROOFS of the statements about the arithmetic unit (42_arithmetic_unit.md). -/

namespace Sys2Proof.Machine

/-- The converse of `alu_ok`: two indices that name registers, a supported tag and a result that narrows give a register file. -/
theorem alu_eq_ok {ov : ArithOverflow} {tag : Tag} {a b : Byte} {x : RegFile} {ra rb : Fin 8} {exact : Nat} {r : Byte}
    (ha : regOperand a = .ok ra) (hb : regOperand b = .ok rb)
    (he : exactResult tag (getReg x ra) (getReg x rb) = some exact) (hn : narrow ov exact = .ok r) :
    alu ov tag a b x = .ok (setReg x ra r) := by
  simp [alu, ha, hb, he, hn]

/-- A register reads the value just written to it, whatever the file held. -/
theorem getReg_setReg_same (x : RegFile) (r : Fin 8) (v : Byte) : getReg (setReg x r v) r = v := by
  simp [getReg_setReg]

/-- A write to one register leaves the others. -/
theorem getReg_setReg_of_ne {r r' : Fin 8} (hne : r'.val ≠ r.val) (x : RegFile) (v : Byte) :
    getReg (setReg x r v) r' = getReg x r' := by
  simp [getReg_setReg, Fin.ext_iff, hne.symm]

/-- Settles O26: the agreeing file gives the unit the same two operands, so `alu_eq_ok` writes the same result into register a. -/
theorem aluReadsTwoRegistersAndWritesOne : Obligations.AluReadsTwoRegistersAndWritesOne := by
  unfold Obligations.AluReadsTwoRegistersAndWritesOne
  intro ov tag a b x x' y hx hagree
  obtain ⟨ra, rb, exact, ha, hb, he, hn, rfl⟩ := alu_ok hx
  have hia : a.toNat = ra.val := regOperand_ok_iff.mp ha
  have hib : b.toNat = rb.val := regOperand_ok_iff.mp hb
  rw [← hagree ra (.inl hia.symm), ← hagree rb (.inr hib.symm)] at he
  refine ⟨_, alu_eq_ok ha hb he hn, fun r hr => ?_, fun r hr => ?_⟩
  · obtain rfl : r = ra := Fin.ext (hr.trans hia)
    simp only [getReg_setReg_same]
  · rw [hia] at hr
    exact ⟨getReg_setReg_of_ne hr x _, getReg_setReg_of_ne hr y _⟩

end Sys2Proof.Machine
end

section
/-! PROOFS of the statements about reset, loading and hazards (70_reset_and_hazards.md). -/

namespace Sys2Proof.Machine

/-- The first of some bytes goes into its own cell, the others from the next address on. -/
theorem putBytes_cons_of_lt {addr : Nat} (ha : addr < 256) (m : Memory) (v : Byte) (rest : List Byte) :
    putBytes m addr (v :: rest) = putBytes (putCell m addr v) (addr + 1) rest := by
  simp [putBytes, memSize, ha]

/-- A validated write of a byte below the bound of 256 is never refused (R204). -/
theorem memWrite_of_lt {addr : Nat} (ha : addr < 256) (m : Memory) (v : Byte) :
    memWrite m addr v.toNat = .ok (putCell m addr v) := by
  simp [memWrite, memSize, ha, v.isLt]

/-- Placing bytes leaves every cell below the first and from the end on. -/
theorem cellAt_putBytes_outside {m : Memory} {addr : Nat} {bytes : List Byte} (hm : m.wf = true)
    (hfit : addr + bytes.length ≤ 256) {a : Nat} (hout : a < addr ∨ addr + bytes.length ≤ a) :
    cellAt (putBytes m addr bytes) a = cellAt m a := by
  induction bytes generalizing m addr with
  | nil => rfl
  | cons v rest ih =>
    rw [List.length_cons] at hfit hout
    have ha : addr < 256 := by omega
    rw [putBytes_cons_of_lt ha, ih (putCell_wf hm ha) (by omega) (by omega), cellAt_putCell_of_wf hm, if_neg (by omega)]

/-- Placing bytes that fit puts the byte at position `k` into the cell `k` addresses on. -/
theorem cellAt_putBytes_inside {m : Memory} {addr : Nat} {bytes : List Byte} (hm : m.wf = true)
    (hfit : addr + bytes.length ≤ 256) {k : Nat} (hk : k < bytes.length) :
    cellAt (putBytes m addr bytes) (addr + k) = bytes[k] := by
  induction bytes generalizing m addr k with
  | nil => simp at hk
  | cons v rest ih =>
    rw [List.length_cons] at hfit
    have ha : addr < 256 := by omega
    have hfit' : addr + 1 + rest.length ≤ 256 := by omega
    have hm' := putCell_wf (v := v) hm ha
    rw [putBytes_cons_of_lt ha]
    cases k with
    | zero =>
      have hkept := cellAt_putBytes_outside hm' hfit' (.inl (Nat.lt_succ_self addr))
      simpa [cellAt_putCell_of_wf hm] using hkept
    | succ k => simpa [Nat.succ_add_eq_add_succ] using ih hm' hfit' (Nat.lt_of_succ_lt_succ hk)

/-- The loop of R906 over bytes that fit is never refused, and places them. -/
theorem loadCells_eq_putBytes {addr : Nat} {img : List Byte} (hfit : addr + img.length ≤ 256) (m : Memory) :
    loadCells m addr img = .ok (putBytes m addr img) := by
  induction img generalizing m addr with
  | nil => rfl
  | cons v rest ih =>
    rw [List.length_cons] at hfit
    have ha : addr < 256 := by omega
    rw [putBytes_cons_of_lt ha, ← ih (by omega)]
    simp [loadCells, memWrite_of_lt ha]

/-- Loading an image that fits changes memory alone, by placing the image from address 0 (R906). -/
theorem loadState_eq_putBytes {img : List Byte} (hfit : img.length ≤ 256) (s : State) :
    loadState img s = .ok { s with mem := putBytes s.mem 0 img } := by
  simp [loadState, loadCells_eq_putBytes (addr := 0) (by omega : 0 + img.length ≤ 256)]

/-- Settles O47: the load places the image from address 0; below its length a cell holds the image's byte, and from there on what it
held at reset. -/
theorem loadingFollowsR906 : Obligations.LoadingFollowsR906 := by
  unfold Obligations.LoadingFollowsR906
  intro img hfit
  have hfit0 : 0 + img.length ≤ 256 := by omega
  refine ⟨_, loadState_eq_putBytes hfit State.reset, fun k hk => ?_, fun k hk hk256 => ?_, rfl, rfl, rfl, rfl, rfl⟩
  · have himage := cellAt_putBytes_inside reset_mem_wf hfit0 hk
    rw [Nat.zero_add] at himage
    rw [memRead_of_lt (by omega), himage]
  · have hzero : cellAt State.reset.mem k = 0 := rfl
    rw [memRead_of_lt hk256, cellAt_putBytes_outside reset_mem_wf hfit0 (by omega), hzero]

end Sys2Proof.Machine
end

section
/-! PROOFS that decoding and encoding are inverse to each other, on a list of bytes and in memory (30_encoding.md). -/

namespace Sys2Proof

theorem encode_length (c : Opcodes) (i : Instr) : (encode c i).length = i.length := by
  cases i with
  | ldi a b => exact (Laws.EncodedLength.ldi a b c).1
  | prn a => exact (Laws.EncodedLength.prn a c).1
  | mul a b => exact (Laws.EncodedLength.mul a b c).1
  | hlt a => exact (Laws.EncodedLength.hlt a c).1
  | unknown op => exact (Laws.EncodedLength.unknown op c).1

/-- Every opcode byte is the byte of one of the four kinds or an unknown opcode (R305, R307). -/
theorem Opcodes.eq_byteOf_or_isUnknown (c : Opcodes) (op : Byte) : (∃ k, op = c.byteOf k) ∨ c.isUnknown op = true := by
  cases hd : c.decodeOpcode op with
  | none => exact .inr (Opcodes.decodeOpcode_none_iff.mp hd)
  | some kw => exact .inl ⟨kw.1, (Opcodes.decodeOpcode_some hd).1⟩

/-- An unknown opcode is decoded from its opcode byte alone (R308). -/
theorem decodeFrom_of_isUnknown {ε : Type} {c : Opcodes} {fetch : Nat → Except ε Byte} {op : Byte}
    (h0 : fetch 0 = .ok op) (hu : c.isUnknown op = true) : decodeFrom c fetch = .ok (.unknown op) := by
  simp [decodeFrom, h0, Opcodes.decodeOpcode_none_iff.mpr hu]

/-- A source of bytes gives these bytes from offset 0 on. -/
def ReadsAs {ε : Type} (fetch : Nat → Except ε Byte) (bytes : List Byte) : Prop :=
  ∀ (k : Nat) (h : k < bytes.length), fetch k = .ok bytes[k]

@[simp] theorem readsAs_nil {ε : Type} {fetch : Nat → Except ε Byte} : ReadsAs fetch [] := fun _ h => absurd h (Nat.not_lt_zero _)

@[simp] theorem readsAs_cons {ε : Type} {fetch : Nat → Except ε Byte} {b : Byte} {bytes : List Byte} :
    ReadsAs fetch (b :: bytes) ↔ fetch 0 = .ok b ∧ ReadsAs (fun k => fetch (k + 1)) bytes := by
  constructor
  · exact fun h => ⟨h 0 (Nat.succ_pos _), fun k hk => h (k + 1) (Nat.succ_lt_succ hk)⟩
  · rintro ⟨h0, h⟩ k hk
    cases k with
    | zero => exact h0
    | succ k => exact h k (Nat.lt_of_succ_lt_succ hk)

/-- A source of bytes decodes to an instruction exactly when the instruction is well-formed and the source gives its encoding:
decoder and encoder read the same formats (R300 to R305). -/
theorem decodeFrom_eq_ok_iff {ε : Type} {c : Opcodes} {fetch : Nat → Except ε Byte} {i : Instr} :
    decodeFrom c fetch = .ok i ↔ i.wf c = true ∧ ReadsAs fetch (encode c i) := by
  constructor
  · intro h
    obtain ⟨op, h0, hu, rfl⟩ | ⟨a, b, h0, h1, h2, rfl⟩ | ⟨a, h0, h1, rfl⟩ | ⟨a, b, h0, h1, h2, rfl⟩ | ⟨a, h0, h1, rfl⟩ :=
      decodeFrom_ok h
    · exact ⟨hu, by simp [encode, h0]⟩
    · exact ⟨rfl, by simp [encode, h0, h1, h2]⟩
    · exact ⟨rfl, by simp [encode, h0, h1]⟩
    · exact ⟨rfl, by simp [encode, h0, h1, h2]⟩
    · exact ⟨rfl, by simp [encode, h0, h1]⟩
  · rintro ⟨hwf, hbytes⟩
    cases i with
    | ldi a b =>
      obtain ⟨h0, h1, h2⟩ : fetch 0 = .ok c.ldi ∧ fetch 1 = .ok a ∧ fetch 2 = .ok b := by simpa [encode] using hbytes
      exact decodeFrom_of_width_three (k := .ldi) rfl h0 h1 h2
    | prn a =>
      obtain ⟨h0, h1⟩ : fetch 0 = .ok c.prn ∧ fetch 1 = .ok a := by simpa [encode] using hbytes
      exact decodeFrom_of_width_two (k := .prn) rfl h0 h1
    | mul a b =>
      obtain ⟨h0, h1, h2⟩ : fetch 0 = .ok c.mul ∧ fetch 1 = .ok a ∧ fetch 2 = .ok b := by simpa [encode] using hbytes
      exact decodeFrom_of_width_three (k := .mul) rfl h0 h1 h2
    | hlt a =>
      obtain ⟨h0, h1⟩ : fetch 0 = .ok c.hlt ∧ fetch 1 = .ok a := by simpa [encode] using hbytes
      exact decodeFrom_of_width_two (k := .hlt) rfl h0 h1
    | unknown op => exact decodeFrom_of_isUnknown (by simpa [encode] using hbytes) hwf

theorem fetchList_eq_ok_iff {bytes : List Byte} {k : Nat} {b : Byte} : fetchList bytes k = .ok b ↔ bytes[k]? = some b := by
  unfold fetchList
  cases bytes[k]? <;> simp

/-- A list of bytes decodes to an instruction and a rest exactly when the instruction is well-formed and the list is its encoding
followed by the rest. -/
theorem decode_eq_ok_iff {c : Opcodes} {bytes rest : List Byte} {i : Instr} :
    decode c bytes = .ok (i, rest) ↔ i.wf c = true ∧ encode c i ++ rest = bytes := by
  constructor
  · intro h
    unfold decode at h
    cases hd : decodeFrom c (fetchList bytes) with
    | error e => simp [hd] at h
    | ok j =>
      obtain ⟨rfl, rfl⟩ : j = i ∧ bytes.drop j.length = rest := by simpa [hd] using h
      obtain ⟨hwf, hbytes⟩ := decodeFrom_eq_ok_iff.mp hd
      have hprefix : encode c j <+: bytes := List.prefix_iff_getElem?.mpr fun k hk => fetchList_eq_ok_iff.mp (hbytes k hk)
      refine ⟨hwf, ?_⟩
      rw [← encode_length c j]
      exact List.prefix_iff_eq_append.mp hprefix
  · rintro ⟨hwf, rfl⟩
    have hd : decodeFrom c (fetchList (encode c i ++ rest)) = .ok i :=
      decodeFrom_eq_ok_iff.mpr ⟨hwf, fun k hk => fetchList_eq_ok_iff.mpr <|
        (List.getElem?_append_left hk).trans (List.getElem?_eq_getElem hk)⟩
    simp [decode, hd, ← encode_length c i]

/-- Settles O1: the direction of `decode_eq_ok_iff` from the bytes to the instruction. -/
theorem decodeOfEncodeIsTheInstruction : Obligations.DecodeOfEncodeIsTheInstruction := by
  unfold Obligations.DecodeOfEncodeIsTheInstruction
  exact fun _ _ _ hwf => decode_eq_ok_iff.mpr ⟨hwf, rfl⟩

/-- Settles O2: the direction of `decode_eq_ok_iff` from the instruction to the bytes. -/
theorem encodeOfDecodeIsTheBytes : Obligations.EncodeOfDecodeIsTheBytes := by
  unfold Obligations.EncodeOfDecodeIsTheBytes
  exact fun _ _ _ _ => decode_eq_ok_iff.mp

/-- The four opcode bytes as numbers. -/
def Opcodes.knownNats (c : Opcodes) : List Nat := [c.ldi, c.prn, c.mul, c.hlt].map BitVec.toNat

theorem Opcodes.knownNats_nodup (c : Opcodes) : c.knownNats.Nodup :=
  c.distinct.map fun _ _ => BitVec.eq_of_toNat_eq

/-- A number below 256 is one of the four exactly when the table answers for its byte. -/
theorem Opcodes.mem_knownNats_iff {c : Opcodes} {n : Nat} (hn : n < 256) :
    n ∈ c.knownNats ↔ c.decodeOpcode (BitVec.ofNat 8 n) ≠ none := by
  have toNat_eq : ∀ b : Byte, n = b.toNat ↔ BitVec.ofNat 8 n = b := fun b => by
    rw [← BitVec.toNat_inj, BitVec.toNat_ofNat, Nat.mod_eq_of_lt hn]
  rw [Ne, Opcodes.decodeOpcode_none_iff, Opcodes.isUnknown_iff]
  simp only [Opcodes.knownNats, List.map_cons, List.map_nil, List.mem_cons, List.not_mem_nil, or_false, toNat_eq]
  tauto

/-- The numbers of bytes that the table answers for are the four opcode bytes, in some order. -/
theorem Opcodes.filter_known_perm (c : Opcodes) :
    ((List.range 256).filter fun n => !decide (c.decodeOpcode (BitVec.ofNat 8 n) = none)).Perm c.knownNats := by
  refine (List.perm_ext_iff_of_nodup (List.nodup_range.filter _) c.knownNats_nodup).mpr fun n => ?_
  have lt_of_mem : n ∈ c.knownNats → n < 256 := by
    rw [Opcodes.knownNats, List.mem_map]
    rintro ⟨b, -, rfl⟩
    exact b.isLt
  constructor
  · intro h
    obtain ⟨hn, hk⟩ := List.mem_filter.mp h
    exact (Opcodes.mem_knownNats_iff (List.mem_range.mp hn)).mpr (by simpa using hk)
  · intro h
    have hn := lt_of_mem h
    exact List.mem_filter.mpr ⟨List.mem_range.mpr hn, by simpa using (Opcodes.mem_knownNats_iff hn).mp h⟩

/-- Settles O5: the bytes that are not unknown are the four opcodes, which are distinct (R18), and 256 - 4 = 252. -/
theorem unknownOpcodesAre252 : Obligations.UnknownOpcodesAre252 := by
  unfold Obligations.UnknownOpcodesAre252
  refine ⟨fun c => ?_, by decide⟩
  have hknown := c.filter_known_perm.length_eq
  have hfour : c.knownNats.length = 4 := rfl
  have hsum := List.length_eq_length_filter_add (l := List.range 256)
    fun n => decide (c.decodeOpcode (BitVec.ofNat 8 n) = none)
  rw [List.length_range] at hsum
  omega

/-- Settles O6: the words are the formats written out, so the decoder computes the instructions. -/
theorem tableWordsDecode : Obligations.TableWordsDecode := by
  unfold Obligations.TableWordsDecode
  decide

end Sys2Proof

namespace Sys2Proof.Machine

/-- An instruction is fetched at `p` exactly when it is well-formed and memory reads as its encoding from `p` on. -/
theorem fetchInstr_eq_ok_iff {c : Opcodes} {m : Memory} {p : Nat} {i : Instr} :
    fetchInstr c m p = .ok i ↔ i.wf c = true ∧ ReadsAs (fun k => memRead m (p + k)) (encode c i) :=
  decodeFrom_eq_ok_iff

theorem memRead_eq_ok_iff {m : Memory} {addr : Nat} {b : Byte} : memRead m addr = .ok b ↔ addr < 256 ∧ cellAt m addr = b := by
  by_cases h : addr < 256
  · simp [memRead_of_lt h, h]
  · simp [memRead_of_ge (Nat.le_of_not_lt h), h]

/-- A fetched instruction is well-formed and lies in memory whole (R402, R403). -/
theorem fetchInstr_ok {c : Opcodes} {m : Memory} {p : Nat} {i : Instr} (h : fetchInstr c m p = .ok i) :
    i.wf c = true ∧ p + i.length ≤ 256 := by
  obtain ⟨hwf, hbytes⟩ := fetchInstr_eq_ok_iff.mp h
  have hpos : 0 < i.length := by cases i <;> exact Nat.succ_pos _
  have hlast := hbytes (i.length - 1) (by rw [encode_length]; omega)
  have hlt := (memRead_eq_ok_iff.mp hlast).1
  exact ⟨hwf, by omega⟩

/-- The offsets that `bytesFrom` keeps are the first ones. -/
theorem filter_offsets (p : Nat) : ((List.range 3).filter fun k => p + k < memSize) = List.range (min 3 (256 - p)) := by
  rw [← List.Ico.zero_bot, ← List.Ico.zero_bot, ← List.Ico.filter_lt]
  refine List.filter_congr fun k _ => ?_
  rw [decide_eq_decide, memSize]
  omega

/-- The bytes that an instruction at `p` could take are what memory reads there. -/
theorem memRead_of_bytesFrom {m : Memory} {p k : Nat} {b : Byte} (h : (bytesFrom m p)[k]? = some b) :
    memRead m (p + k) = .ok b := by
  obtain ⟨hk, hb⟩ : k < min 3 (256 - p) ∧ cellAt m (p + k) = b := by
    simpa [bytesFrom, filter_offsets, List.getElem?_range, List.getElem?_eq_some_iff] using h
  rw [memRead_of_lt (by omega), hb]

/-- What the bytes at `p` decode to is what is fetched there. -/
theorem fetchInstr_of_decode {c : Opcodes} {m : Memory} {p : Nat} {i : Instr} {bytes rest : List Byte}
    (h : decode c bytes = .ok (i, rest)) (hmem : ∀ (k : Nat) (b : Byte), bytes[k]? = some b → memRead m (p + k) = .ok b) :
    fetchInstr c m p = .ok i := by
  obtain ⟨hwf, rfl⟩ := decode_eq_ok_iff.mp h
  exact fetchInstr_eq_ok_iff.mpr ⟨hwf, fun k hk => hmem k _ <|
    (List.getElem?_append_left hk).trans (List.getElem?_eq_getElem hk)⟩

end Sys2Proof.Machine
end

section
/-! PROOFS of the statements about each instruction's own effect and about the arithmetic unit (41_register_transfer.md,
42_arithmetic_unit.md, 43_halt.md). -/

namespace Sys2Proof.Machine

/-! Where each instruction completes and where it takes its fault (R500, R510, R620, R700, R701). -/

theorem exec_ldi_of_ok {a : Byte} {ra : Fin 8} (ha : regOperand a = .ok ra) (b : Byte) (s : State) :
    exec (.ldi a b) s = .next (advance 3 (writeReg ra b s)) := by
  simp [exec, execLdi, ha]

theorem exec_ldi_of_error {a : Byte} {info : FaultInfo} (ha : regOperand a = .error info) (b : Byte) (s : State) :
    exec (.ldi a b) s = .next (takeFault info s) := by
  simp [exec, execLdi, ha, raise]

theorem exec_prn_of_ok {a : Byte} {ra : Fin 8} (ha : regOperand a = .ok ra) (s : State) :
    exec (.prn a) s = .next (advance 2 (emit (getReg s.x ra) s)) := by
  simp [exec, execPrn, ha]

theorem exec_prn_of_error {a : Byte} {info : FaultInfo} (ha : regOperand a = .error info) (s : State) :
    exec (.prn a) s = .next (takeFault info s) := by
  simp [exec, execPrn, ha, raise]

/-- The unit raises what the check of index a raises, whatever the tag and the parameter. -/
theorem alu_of_error_left {a : Byte} {info : FaultInfo} (ha : regOperand a = .error info) (ov : ArithOverflow) (tag : Tag)
    (b : Byte) (x : RegFile) : alu ov tag a b x = .error (.raised info) := by
  simp [alu, ha]

/-- With a good index a the unit raises what the check of index b raises. -/
theorem alu_of_error_right {a b : Byte} {ra : Fin 8} {info : FaultInfo} (ha : regOperand a = .ok ra)
    (hb : regOperand b = .error info) (ov : ArithOverflow) (tag : Tag) (x : RegFile) :
    alu ov tag a b x = .error (.raised info) := by
  simp [alu, ha, hb]

/-- With two good indices the unit raises an unsupported tag (R606). -/
theorem alu_of_unsupported {a b : Byte} {ra rb : Fin 8} (ha : regOperand a = .ok ra) (hb : regOperand b = .ok rb)
    (ov : ArithOverflow) (n : Nat) (x : RegFile) : alu ov (.other n) a b x = .error (.raised (.tag (.other n))) := by
  simp [alu, ha, hb, exactResult]

/-- What the unit raises is the fault of the instruction that dispatched it. -/
theorem execAlu_of_raised {ov : ArithOverflow} {tag : Tag} {a b : Byte} {s : State} {info : FaultInfo}
    (h : alu ov tag a b s.x = .error (.raised info)) : execAlu ov tag a b s = .next (takeFault info s) := by
  simp [execAlu, h, raise]

/-- What the unit stops the model with is what the instruction stops with. -/
theorem execAlu_of_model {ov : ArithOverflow} {tag : Tag} {a b : Byte} {s : State} {f : Fault}
    (h : alu ov tag a b s.x = .error (.model f)) : execAlu ov tag a b s = .fault f := by
  simp [execAlu, h]

/-- What the unit writes is what the instruction writes. -/
theorem execAlu_of_ok {ov : ArithOverflow} {tag : Tag} {a b : Byte} {s : State} {ra : Fin 8} {v : Byte}
    (h : alu ov tag a b s.x = .ok (setReg s.x ra v)) : execAlu ov tag a b s = .next (advance 3 (writeReg ra v s)) := by
  simp [execAlu, h, writeReg]

/-- The low 8 bits of the exact product are the product of the bytes (R604, decision D2). -/
theorem ofNat_exactProduct (va vb : Byte) : BitVec.ofNat 8 (exactProduct va vb) = va * vb := by
  simp [exactProduct, BitVec.ofNat_mul]

/-- The low 8 bits of the exact sum are the sum of the bytes (R605, decision D2). -/
theorem ofNat_exactSum (va vb : Byte) : BitVec.ofNat 8 (exactSum va vb) = va + vb := by
  simp [exactSum, BitVec.ofNat_add]

theorem exec_mul_of_ok {a b : Byte} {ra rb : Fin 8} (ha : regOperand a = .ok ra) (hb : regOperand b = .ok rb) (s : State) :
    exec (.mul a b) s = .next (advance 3 (writeReg ra (getReg s.x ra * getReg s.x rb) s)) := by
  rw [← ofNat_exactProduct]
  exact execAlu_of_ok (alu_eq_ok ha hb rfl rfl)

theorem exec_mul_of_error_left {a : Byte} {info : FaultInfo} (ha : regOperand a = .error info) (b : Byte) (s : State) :
    exec (.mul a b) s = .next (takeFault info s) :=
  execAlu_of_raised (alu_of_error_left ha _ _ b s.x)

theorem exec_mul_of_error_right {a b : Byte} {ra : Fin 8} {info : FaultInfo} (ha : regOperand a = .ok ra)
    (hb : regOperand b = .error info) (s : State) : exec (.mul a b) s = .next (takeFault info s) :=
  execAlu_of_raised (alu_of_error_right ha hb _ _ s.x)

theorem exec_hlt (a : Byte) (s : State) : exec (.hlt a) s = .next (halt s) := rfl

theorem exec_unknown (op : Byte) (s : State) : exec (.unknown op) s = .next (takeFault (.opcode op) s) := rfl

/-- Everything an instruction does, in every state alike: it takes a fault that depends on its operands alone, or completes with
the effect of its rule. -/
theorem exec_cases (i : Instr) :
    (∃ info, (i.regsInRange = false ∨ ∃ op, i = .unknown op) ∧ ∀ s, exec i s = .next (takeFault info s)) ∨
    (∃ a b ra, i = .ldi a b ∧ regOperand a = .ok ra ∧ ∀ s, exec i s = .next (advance 3 (writeReg ra b s))) ∨
    (∃ a ra, i = .prn a ∧ regOperand a = .ok ra ∧ ∀ s, exec i s = .next (advance 2 (emit (getReg s.x ra) s))) ∨
    (∃ a b ra rb, i = .mul a b ∧ regOperand a = .ok ra ∧ regOperand b = .ok rb ∧
      ∀ s, exec i s = .next (advance 3 (writeReg ra (getReg s.x ra * getReg s.x rb) s))) ∨
    (∃ a, i = .hlt a ∧ ∀ s, exec i s = .next (halt s)) := by
  have ge_of_error : ∀ {a : Byte} {info : FaultInfo}, regOperand a = .error info → 8 ≤ a.toNat :=
    fun he => (regOperand_error_iff.mp he).1
  cases i with
  | ldi a b =>
    cases ha : regOperand a with
    | error info =>
      exact .inl ⟨info, .inl (by simp [Instr.regsInRange, numRegs, ge_of_error ha]), exec_ldi_of_error ha b⟩
    | ok ra => exact .inr (.inl ⟨a, b, ra, rfl, ha, exec_ldi_of_ok ha b⟩)
  | prn a =>
    cases ha : regOperand a with
    | error info =>
      exact .inl ⟨info, .inl (by simp [Instr.regsInRange, numRegs, ge_of_error ha]), exec_prn_of_error ha⟩
    | ok ra => exact .inr (.inr (.inl ⟨a, ra, rfl, ha, exec_prn_of_ok ha⟩))
  | mul a b =>
    cases ha : regOperand a with
    | error info =>
      exact .inl ⟨info, .inl (by simp [Instr.regsInRange, numRegs, ge_of_error ha]), exec_mul_of_error_left ha b⟩
    | ok ra =>
      cases hb : regOperand b with
      | error info =>
        exact .inl ⟨info, .inl (by simp [Instr.regsInRange, numRegs, ge_of_error hb]), exec_mul_of_error_right ha hb⟩
      | ok rb => exact .inr (.inr (.inr (.inl ⟨a, b, ra, rb, rfl, ha, hb, exec_mul_of_ok ha hb⟩)))
  | hlt a => exact .inr (.inr (.inr (.inr ⟨a, rfl, exec_hlt a⟩)))
  | unknown op => exact .inl ⟨.opcode op, .inr ⟨op, rfl⟩, exec_unknown op⟩

/-- An instruction always answers a next state. -/
theorem exec_total (i : Instr) (s : State) : ∃ s', exec i s = .next s' := by
  obtain ⟨_, -, h⟩ | ⟨_, _, _, -, -, h⟩ | ⟨_, _, -, -, h⟩ | ⟨_, _, _, _, -, -, -, h⟩ | ⟨_, -, h⟩ := exec_cases i
  all_goals exact ⟨_, h s⟩

/-- Settles O11: `getReg_setReg` at the register written and at another. -/
theorem registersAreIndependent : Obligations.RegistersAreIndependent := by
  unfold Obligations.RegistersAreIndependent
  exact fun x r r' v => ⟨getReg_setReg_same x r v, fun hne => getReg_setReg_of_ne (Fin.val_ne_of_ne hne) x v⟩

/-- Settles O12: each form raises what the check of the index raises (R104), with a good first operand of MUL checked before. -/
theorem registerIndexIsNeverMasked : Obligations.RegisterIndexIsNeverMasked := by
  unfold Obligations.RegisterIndexIsNeverMasked
  intro i s hi ins hins
  have hbad : regOperand i = .error (.oob .register i.toNat) := regOperand_of_ge hi
  refine ⟨takeFault (.oob .register i.toNat) s, ?_, rfl, rfl, rfl⟩
  obtain ⟨b, rfl⟩ | rfl | ⟨b, rfl⟩ | ⟨a, ha, rfl⟩ := hins
  · exact exec_ldi_of_error hbad b s
  · exact exec_prn_of_error hbad s
  · exact exec_mul_of_error_left hbad b s
  · exact exec_mul_of_error_right (regOperand_of_lt ha) hbad s

/-- Settles O13: an index below 8 selects its register, and LDI then completes. -/
theorem ldiCompletes : Obligations.LdiCompletes := by
  unfold Obligations.LdiCompletes
  exact fun a b s h => exec_ldi_of_ok (regOperand_of_lt h) b s

/-- Settles O14: an index below 8 selects its register, and PRN then completes. -/
theorem prnCompletes : Obligations.PrnCompletes := by
  unfold Obligations.PrnCompletes
  exact fun a s h => exec_prn_of_ok (regOperand_of_lt h) s

/-- Settles O15: MUL writes the product of the two bytes, whose value is the product modulo 2^8, to register a alone. -/
theorem mulCompletes : Obligations.MulCompletes := by
  unfold Obligations.MulCompletes
  intro a b s ha hb
  refine ⟨_, exec_mul_of_ok (regOperand_of_lt ha) (regOperand_of_lt hb) s, ?_, rfl, fun r hr => ?_⟩
  · simp [getReg, setReg]
  · exact getReg_setReg_of_ne (r := ⟨a.toNat, ha⟩) hr s.x _

/-- Settles O16: HLT has no condition (R700). -/
theorem hltCompletes : Obligations.HltCompletes := by
  unfold Obligations.HltCompletes
  exact exec_hlt

/-- Settles O17: the unknown row raises its opcode, and a raise writes the report and HALTED (R802). -/
theorem unknownOpcodeTakesItsFault : Obligations.UnknownOpcodeTakesItsFault := by
  unfold Obligations.UnknownOpcodeTakesItsFault
  exact exec_unknown

/-- A register that an index does not name is not the one that the index selects. -/
theorem val_ne_of_index_ne {a : Byte} {ra r : Fin 8} (ha : regOperand a = .ok ra) (hr : decide (a.toNat = r.val) = false) :
    r.val ≠ ra.val := by
  rw [← regOperand_ok_iff.mp ha]
  exact Ne.symm (of_decide_eq_false hr)

/-- No instruction writes memory. -/
theorem exec_mem {i : Instr} {s s' : State} (h : exec i s = .next s') : s'.mem = s.mem := by
  obtain ⟨_, rfl, -⟩ | ⟨_, _, _, -, -, rfl⟩ | ⟨_, _, -, -, rfl⟩ | ⟨_, _, _, _, -, -, -, rfl⟩ | ⟨_, -, rfl⟩ := exec_next h
  all_goals rfl

/-- Settles O18: each clause read off the outcomes of `exec_next`. -/
theorem instructionFrame : Obligations.InstructionFrame := by
  unfold Obligations.InstructionFrame
  intro i s s' h
  refine ⟨fun addr => by rw [exec_mem h], ?_⟩
  obtain ⟨info, rfl, hbad⟩ | ⟨a, b, ra, rfl, ha, rfl⟩ | ⟨a, ra, rfl, -, rfl⟩ | ⟨a, b, ra, rb, rfl, ha, -, rfl⟩ | ⟨a, rfl, rfl⟩ :=
    exec_next h
  case inl =>
    have hnot : i.regsInRange = true → ¬ ∀ op, i ≠ .unknown op := by
      obtain ⟨op, rfl, -⟩ | ⟨hrange, -⟩ := hbad
      · exact fun _ hne => hne op rfl
      · simp [hrange]
    exact ⟨fun _ _ => rfl, fun _ => rfl, fun hr hu => absurd hu (hnot hr), fun hr hu _ => absurd hu (hnot hr)⟩
  case inr.inl =>
    exact ⟨fun r hr => getReg_setReg_of_ne (val_ne_of_index_ne ha hr) s.x _, fun _ => rfl, fun _ _ => rfl, fun _ _ _ => rfl⟩
  case inr.inr.inl => exact ⟨fun _ _ => rfl, fun hno => absurd rfl (hno a), fun _ _ => rfl, fun _ _ _ => rfl⟩
  case inr.inr.inr.inl =>
    exact ⟨fun r hr => getReg_setReg_of_ne (val_ne_of_index_ne ha hr) s.x _, fun _ => rfl, fun _ _ => rfl, fun _ _ _ => rfl⟩
  case inr.inr.inr.inr => exact ⟨fun _ _ => rfl, fun _ => rfl, fun _ _ => rfl, fun _ _ hno => absurd rfl (hno a)⟩

/-- Settles O25: the checks of the unit in their order, and with both indices good the narrowed sum and product. -/
theorem aluFollowsR602 : Obligations.AluFollowsR602 := by
  unfold Obligations.AluFollowsR602
  intro tag a b x
  refine ⟨fun ha => alu_of_error_left (regOperand_of_ge ha) _ _ b x,
    fun ha hb => alu_of_error_right (regOperand_of_lt ha) (regOperand_of_ge hb) _ _ x, fun ha hb => ?_⟩
  refine ⟨?_, ?_, fun n => alu_of_unsupported (regOperand_of_lt ha) (regOperand_of_lt hb) _ n x⟩
  · rw [alu_eq_ok (regOperand_of_lt ha) (regOperand_of_lt hb) rfl (narrow_wrap _), ofNat_exactSum]
    rfl
  · rw [alu_eq_ok (regOperand_of_lt ha) (regOperand_of_lt hb) rfl (narrow_wrap _), ofNat_exactProduct]
    rfl

/-- Settles O27: the unit raises the tag, and the instruction takes what the unit raises. -/
theorem unsupportedTagIsFatal : Obligations.UnsupportedTagIsFatal := by
  unfold Obligations.UnsupportedTagIsFatal
  exact fun ov n a b s ha hb =>
    execAlu_of_raised (alu_of_unsupported (regOperand_of_lt ha) (regOperand_of_lt hb) ov n s.x)

end Sys2Proof.Machine
end

section
/-! PROOFS of the statements about the fetch-decode-execute step (40_execution_engine.md, 60_exceptions.md). -/

namespace Sys2Proof.Machine

/-! What a fetch gives at each address (R402 to R404), beside `fetchInstr_of_width_two` and `fetchInstr_of_width_three`. -/

/-- A fetch past the end of memory faults with its own address (R402, decision D4). -/
theorem fetchInstr_of_ge {p : Nat} (hp : 256 ≤ p) (c : Opcodes) (m : Memory) :
    fetchInstr c m p = .error (.oob .memory p) := by
  simp [fetchInstr, decodeFrom, memRead_of_ge hp]

/-- At the last address a kind of the table has no `operand_a`. -/
theorem fetchInstr_without_operand_a {c : Opcodes} {m : Memory} {p : Nat} {k : Kind} (hp : p < 256) (hp' : 256 ≤ p + 1)
    (hop : cellAt m p = c.byteOf k) : fetchInstr c m p = .error (.oob .memory (p + 1)) := by
  simp [fetchInstr, decodeFrom, memRead_of_lt hp, memRead_of_ge hp', hop, Opcodes.decodeOpcode_byteOf]

/-- At the last address but one a kind of width 3 has no `operand_b`. -/
theorem fetchInstr_without_operand_b {c : Opcodes} {m : Memory} {p : Nat} {k : Kind} (hk : k.width = 3) (hp : p + 1 < 256)
    (hp' : 256 ≤ p + 2) (hop : cellAt m p = c.byteOf k) : fetchInstr c m p = .error (.oob .memory (p + 2)) := by
  simp [fetchInstr, decodeFrom, memRead_of_lt (Nat.lt_of_succ_lt hp), memRead_of_lt hp, memRead_of_ge hp', hop,
    Opcodes.decodeOpcode_byteOf, hk]

/-- An unknown opcode is fetched from its own byte, at any address of memory (R403). -/
theorem fetchInstr_of_isUnknown {c : Opcodes} {m : Memory} {p : Nat} (hp : p < 256) (hu : c.isUnknown (cellAt m p) = true) :
    fetchInstr c m p = .ok (.unknown (cellAt m p)) :=
  decodeFrom_of_isUnknown (memRead_of_lt hp) hu

/-! A step of a running engine by what its fetch gave (R401). -/

theorem stepWith_of_fetch_ok {c : Opcodes} {s : State} {i : Instr} (hs : s.status = .running)
    (hf : fetchInstr c s.mem s.pc = .ok i) : stepWith c s = exec i s := by
  rw [stepWith_running hs, hf]

theorem stepWith_of_fetch_error {c : Opcodes} {s : State} {info : FaultInfo} (hs : s.status = .running)
    (hf : fetchInstr c s.mem s.pc = .error info) : stepWith c s = .next (takeFault info s) := by
  rw [stepWith_running hs, hf]
  rfl

theorem stepWith_of_halted {c : Opcodes} {s : State} (hs : s.status = .halted) : stepWith c s = .refused .halted := by
  simp [stepWith, hs]

/-- Settles O35: whether the fetch faults or gives an instruction, the answer is a next state (`exec_total`). -/
theorem stepIsTotalWhileRunning : Obligations.StepIsTotalWhileRunning := by
  unfold Obligations.StepIsTotalWhileRunning
  intro c s hs
  cases hf : fetchInstr c s.mem s.pc with
  | error info => exact ⟨_, stepWith_of_fetch_error hs hf⟩
  | ok i => rw [stepWith_of_fetch_ok hs hf]; exact exec_total i s

/-- Settles O33: the fetch gives no byte, and its fault is the step's. -/
theorem fetchPastTheEndFaults : Obligations.FetchPastTheEndFaults := by
  unfold Obligations.FetchPastTheEndFaults
  exact fun c s hs hp => stepWith_of_fetch_error hs (fetchInstr_of_ge hp c s.mem)

/-- Settles O32: the bytes from the pc on are what the fetch reads, so the fetch gives what they decode to. -/
theorem stepRunsTheDecodedInstruction : Obligations.StepRunsTheDecodedInstruction := by
  unfold Obligations.StepRunsTheDecodedInstruction
  exact ⟨fun c s i rest hs hd => stepWith_of_fetch_ok hs (fetchInstr_of_decode hd fun k b => memRead_of_bytesFrom),
    fun _ => rfl⟩

/-- Settles O20: the fetch at the end of memory, and below it the two outcomes of LDI. -/
theorem ldiStepFollowsR500 : Obligations.LdiStepFollowsR500 := by
  unfold Obligations.LdiStepFollowsR500
  intro c s hs hp hop
  refine ⟨fun h => ?_, fun h => ?_, fun a b h ha hb => ?_⟩
  · exact stepWith_of_fetch_error hs (fetchInstr_without_operand_a (k := .ldi) hp (by omega) hop)
  · exact stepWith_of_fetch_error hs (fetchInstr_without_operand_b (k := .ldi) rfl (by omega) (by omega) hop)
  · subst ha hb
    rw [stepWith_of_fetch_ok hs (fetchInstr_of_width_three (k := .ldi) rfl (by omega) hop)]
    exact ⟨fun h => exec_ldi_of_ok (regOperand_of_lt h) _ s, fun h => exec_ldi_of_error (regOperand_of_ge h) _ s⟩

/-- Settles O21: the fetch at the end of memory, and below it the two outcomes of PRN. -/
theorem prnStepFollowsR510 : Obligations.PrnStepFollowsR510 := by
  unfold Obligations.PrnStepFollowsR510
  intro c s hs hp hop
  refine ⟨fun h => ?_, fun a h ha => ?_⟩
  · exact stepWith_of_fetch_error hs (fetchInstr_without_operand_a (k := .prn) hp (by omega) hop)
  · subst ha
    rw [stepWith_of_fetch_ok hs (fetchInstr_of_width_two (k := .prn) rfl (by omega) hop)]
    exact ⟨fun h => exec_prn_of_ok (regOperand_of_lt h) s, fun h => exec_prn_of_error (regOperand_of_ge h) s⟩

/-- Settles O22: the fetch at the end of memory, and below it the three outcomes of MUL. -/
theorem mulStepFollowsR620 : Obligations.MulStepFollowsR620 := by
  unfold Obligations.MulStepFollowsR620
  intro c s hs hp hop
  refine ⟨fun h => ?_, fun h => ?_, fun a b h ha hb => ?_⟩
  · exact stepWith_of_fetch_error hs (fetchInstr_without_operand_a (k := .mul) hp (by omega) hop)
  · exact stepWith_of_fetch_error hs (fetchInstr_without_operand_b (k := .mul) rfl (by omega) (by omega) hop)
  · subst ha hb
    rw [stepWith_of_fetch_ok hs (fetchInstr_of_width_three (k := .mul) rfl (by omega) hop)]
    exact ⟨fun ha hb => exec_mul_of_ok (regOperand_of_lt ha) (regOperand_of_lt hb) s,
      fun ha => exec_mul_of_error_left (regOperand_of_ge ha) _ s,
      fun ha hb => exec_mul_of_error_right (regOperand_of_lt ha) (regOperand_of_ge hb) s⟩

/-- Settles O23: below 255 the operand is fetched and ignored, at 255 its fetch faults (decision D7). -/
theorem hltStepFollowsR700 : Obligations.HltStepFollowsR700 := by
  unfold Obligations.HltStepFollowsR700
  intro c s hs hp hop
  refine ⟨fun h => ?_, fun h => ?_⟩
  · rw [stepWith_of_fetch_ok hs (fetchInstr_of_width_two (k := .hlt) rfl (by omega) hop)]
    exact exec_hlt _ s
  · have hend : s.pc + 1 = 256 := by omega
    rw [← hend]
    exact stepWith_of_fetch_error hs (fetchInstr_without_operand_a (k := .hlt) hp hend.ge hop)

/-- Settles O24: an unknown opcode is fetched whole at any address of memory, and raises. -/
theorem unknownStepFollowsR403 : Obligations.UnknownStepFollowsR403 := by
  unfold Obligations.UnknownStepFollowsR403
  intro c s op hs hp hop h1 h2 h3 h4
  subst hop
  exact stepWith_of_fetch_ok hs (fetchInstr_of_isUnknown hp (Opcodes.isUnknown_iff.mpr ⟨h1, h2, h3, h4⟩))


/-- The kinds of the table have distinct opcode bytes (R18). -/
theorem byteOf_inj {c : Opcodes} {k k' : Kind} : c.byteOf k = c.byteOf k' ↔ k = k' := by
  constructor
  · intro h
    have hd := c.decodeOpcode_byteOf k
    rw [h, c.decodeOpcode_byteOf k'] at hd
    simpa [eq_comm] using congrArg (Option.map Prod.fst) hd
  · rintro rfl
    rfl

/-- The fault that an instruction takes after its fetch: checks 2, 5, 6 and 7 of R804, which look at its own bytes only. -/
def ownFault : Instr → Option FaultInfo
  | .ldi a _ => if 8 ≤ a.toNat then some (.oob .register a.toNat) else none
  | .prn a => if 8 ≤ a.toNat then some (.oob .register a.toNat) else none
  | .mul a b =>
    if 8 ≤ a.toNat then some (.oob .register a.toNat)
    else if 8 ≤ b.toNat then some (.oob .register b.toNat) else none
  | .hlt _ => none
  | .unknown op => some (.opcode op)

/-- The check that the table of R804 finds failing is the fault of the fetch or else the fetched instruction's own. -/
theorem firstFailedCheck_eq (c : Opcodes) (m : Memory) (p : Nat) :
    firstFailedCheck c m p = match fetchInstr c m p with
      | .error info => some info
      | .ok i => ownFault i := by
  by_cases h1 : 256 ≤ p
  · simp [firstFailedCheck, h1, fetchInstr_of_ge]
  have hp := Nat.lt_of_not_le h1
  by_cases h2 : c.isUnknown (cellAt m p) = true
  · simp [firstFailedCheck, h1, h2, fetchInstr_of_isUnknown hp h2, ownFault]
  obtain ⟨k, hop⟩ := (c.eq_byteOf_or_isUnknown (cellAt m p)).resolve_right h2
  by_cases h3 : 256 ≤ p + 1
  · simp [firstFailedCheck, h1, h2, h3, fetchInstr_without_operand_a hp h3 hop]
  have hp3 := Nat.lt_of_not_le h3
  have hldi : cellAt m p = c.ldi ↔ k = .ldi := hop ▸ byteOf_inj (k' := .ldi)
  have hprn : cellAt m p = c.prn ↔ k = .prn := hop ▸ byteOf_inj (k' := .prn)
  have hmul : cellAt m p = c.mul ↔ k = .mul := hop ▸ byteOf_inj (k' := .mul)
  simp only [firstFailedCheck, h1, h2, h3, hldi, hprn, hmul]
  cases k with
  | prn => simp [fetchInstr_of_width_two rfl hp3 hop, Kind.instr, ownFault]
  | hlt => simp [fetchInstr_of_width_two rfl hp3 hop, Kind.instr, ownFault]
  | ldi =>
    by_cases h4 : 256 ≤ p + 2
    · simp [h4, fetchInstr_without_operand_b rfl hp3 h4 hop]
    · simp [h4, fetchInstr_of_width_three rfl (Nat.lt_of_not_le h4) hop, Kind.instr, ownFault]
  | mul =>
    by_cases h4 : 256 ≤ p + 2
    · simp [h4, fetchInstr_without_operand_b rfl hp3 h4 hop]
    · simp [h4, fetchInstr_of_width_three rfl (Nat.lt_of_not_le h4) hop, Kind.instr, ownFault]

theorem exec_of_ownFault_some {i : Instr} {info : FaultInfo} (h : ownFault i = some info) (s : State) :
    exec i s = .next (takeFault info s) := by
  cases i with
  | ldi a b =>
    obtain ⟨ha, rfl⟩ := by simpa [ownFault] using h
    exact exec_ldi_of_error (regOperand_of_ge ha) b s
  | prn a =>
    obtain ⟨ha, rfl⟩ := by simpa [ownFault] using h
    exact exec_prn_of_error (regOperand_of_ge ha) s
  | mul a b =>
    by_cases ha : 8 ≤ a.toNat
    · obtain rfl := by simpa [ownFault, ha] using h
      exact exec_mul_of_error_left (regOperand_of_ge ha) b s
    · obtain ⟨hb, rfl⟩ := by simpa [ownFault, ha] using h
      exact exec_mul_of_error_right (regOperand_of_lt (Nat.lt_of_not_le ha)) (regOperand_of_ge hb) s
  | hlt a => simp [ownFault] at h
  | unknown op =>
    obtain rfl := by simpa [ownFault] using h
    exact exec_unknown op s

theorem exec_of_ownFault_none {i : Instr} (h : ownFault i = none) (s : State) :
    ∃ s', exec i s = .next s' ∧ s'.fault = s.fault := by
  cases i with
  | ldi a b =>
    have ha : a.toNat < 8 := by simpa [ownFault] using h
    exact ⟨_, exec_ldi_of_ok (regOperand_of_lt ha) b s, rfl⟩
  | prn a =>
    have ha : a.toNat < 8 := by simpa [ownFault] using h
    exact ⟨_, exec_prn_of_ok (regOperand_of_lt ha) s, rfl⟩
  | mul a b =>
    simp only [ownFault] at h
    split_ifs at h with ha hb
    exact ⟨_, exec_mul_of_ok (regOperand_of_lt (Nat.lt_of_not_le ha)) (regOperand_of_lt (Nat.lt_of_not_le hb)) s, rfl⟩
  | hlt a => exact ⟨_, exec_hlt a s, rfl⟩
  | unknown op => simp [ownFault] at h

/-- Settles O41: the check that fails first is the fault of the fetch or the instruction's own (`firstFailedCheck_eq`), which is what
the step takes; where none fails, the instruction completes and leaves the report. -/
theorem faultPriorityFollowsR804 : Obligations.FaultPriorityFollowsR804 := by
  unfold Obligations.FaultPriorityFollowsR804
  intro c s hs
  rw [firstFailedCheck_eq]
  cases hf : fetchInstr c s.mem s.pc with
  | error info => exact ⟨fun _ h => Option.some.inj h ▸ stepWith_of_fetch_error hs hf, fun h => by simp at h⟩
  | ok i =>
    rw [stepWith_of_fetch_ok hs hf]
    exact ⟨fun _ h => exec_of_ownFault_some h s, fun h => exec_of_ownFault_none h s⟩

end Sys2Proof.Machine
end

section
/-! PROOFS of what every step keeps and depends on (10_state.md, 40_execution_engine.md, 60_exceptions.md). -/

namespace Sys2Proof.Machine

/-- What a step can leave: it took a fault, whose context is one of R801 or a pc beyond 256; it completed an LDI, MUL or PRN that lies in memory whole
and runs on with the pc past it; or it fetched an HLT and halted. -/
theorem stepWith_cases {c : Opcodes} {s s' : State} (h : stepWith c s = .next s') :
    (∃ info, s' = takeFault info s ∧ (legalInfo c info = true ∨ 256 < s.pc ∧ info = .oob .memory s.pc) ∧
      ∀ a, fetchInstr c s.mem s.pc ≠ .ok (.hlt a)) ∨
    (∃ i x o, fetchInstr c s.mem s.pc = .ok i ∧ ((∃ a b, i = .ldi a b ∨ i = .mul a b) ∨ ∃ a, i = .prn a) ∧
      s.pc + i.length ≤ 256 ∧ s' = { s with x := x, out := o, pc := s.pc + i.length }) ∨
    (∃ a, fetchInstr c s.mem s.pc = .ok (.hlt a) ∧ s.pc + 2 ≤ 256 ∧ s' = halt s) := by
  obtain ⟨-, ⟨info, hf, rfl⟩ | ⟨i, hf, he⟩⟩ := stepWith_next h
  · refine .inl ⟨info, rfl, ?_, by simp [hf]⟩
    obtain ⟨k, -, hge, hlt, rfl⟩ := fetchInstr_error hf
    by_cases hindex : s.pc + k = 256
    · exact .inl (by simp [legalInfo, memSize, hindex])
    · obtain rfl : k = 0 := by omega
      exact .inr ⟨by omega, rfl⟩
  obtain ⟨hwf, hlen⟩ := fetchInstr_ok hf
  obtain ⟨info, rfl, hinfo⟩ | ⟨a, b, ra, rfl, -, rfl⟩ | ⟨a, ra, rfl, -, rfl⟩ | ⟨a, b, ra, rb, rfl, -, -, rfl⟩ | ⟨a, rfl, rfl⟩ :=
    exec_next he
  case inl =>
    refine .inl ⟨info, rfl, .inl ?_, ?_⟩
    · obtain ⟨op, rfl, rfl⟩ | ⟨-, r, hr, rfl⟩ := hinfo
      · exact hwf
      · simp [legalInfo, numRegs, hr, r.isLt]
    · intro a ha
      obtain rfl : i = .hlt a := by simpa [hf] using ha
      obtain ⟨op, hop, -⟩ | ⟨hrange, -⟩ := hinfo
      · simp at hop
      · simp [Instr.regsInRange] at hrange
  case inr.inl => exact .inr (.inl ⟨_, _, _, hf, .inl ⟨a, b, .inl rfl⟩, hlen, rfl⟩)
  case inr.inr.inl => exact .inr (.inl ⟨_, _, _, hf, .inr ⟨a, rfl⟩, hlen, rfl⟩)
  case inr.inr.inr.inl => exact .inr (.inl ⟨_, _, _, hf, .inl ⟨a, b, .inr rfl⟩, hlen, rfl⟩)
  case inr.inr.inr.inr => exact .inr (.inr ⟨a, hf, hlen, rfl⟩)

/-- The invariant holds after a step: a fault's report is about the pc it leaves, and without one the report is as before. -/
theorem stepWith_legal {c : Opcodes} {s s' : State} (hl : LegalState c s) (h : stepWith c s = .next s') : LegalState c s' := by
  obtain ⟨hmem, hpc, hnone, hreport⟩ := hl
  have hfault : s.fault = none := hnone (stepWith_next h).1
  have no_report : ∀ {t : State} {P : FaultReport → Prop}, t.fault = s.fault → ∀ f, t.fault = some f → P f :=
    fun ht f hf => by simp [ht, hfault] at hf
  obtain ⟨info, rfl, hinfo, -⟩ | ⟨i, x, o, -, -, hlen, rfl⟩ | ⟨a, -, -, rfl⟩ := stepWith_cases h
  · refine ⟨hmem, hpc, fun hrun => by simp at hrun, fun f hf => ?_⟩
    obtain rfl : _ = f := by simpa using hf
    exact ⟨rfl, rfl, hinfo.resolve_right fun hbeyond => absurd hpc (Nat.not_le.mpr hbeyond.1)⟩
  · exact ⟨hmem, hlen, fun _ => hfault, no_report rfl⟩
  · exact ⟨hmem, hpc, fun hrun => by simp at hrun, no_report rfl⟩

/-- Settles O44: `stepWith_legal`, under every assignment and so under the default one. -/
theorem everyStepKeepsTheInvariant : Obligations.EveryStepKeepsTheInvariant := by
  unfold Obligations.EveryStepKeepsTheInvariant
  exact ⟨fun _ _ _ => stepWith_legal, fun _ _ => stepWith_legal⟩

theorem stepWith_mem {c : Opcodes} {s s' : State} (h : stepWith c s = .next s') : s'.mem = s.mem := by
  obtain ⟨_, rfl, -⟩ | ⟨_, _, _, -, -, -, rfl⟩ | ⟨_, -, -, rfl⟩ := stepWith_cases h
  all_goals rfl

/-- Settles O37: no outcome of a step writes memory, and a fetch depends on memory alone. -/
theorem stepNeverWritesMemory : Obligations.StepNeverWritesMemory := by
  unfold Obligations.StepNeverWritesMemory
  exact fun c s s' h => ⟨stepWith_mem h, fun p => by rw [stepWith_mem h]⟩

/-- A step that changes the report took a fault. -/
theorem eq_takeFault_of_fault_ne {c : Opcodes} {s s' : State} (h : stepWith c s = .next s') (hne : s'.fault ≠ s.fault) :
    ∃ info, s' = takeFault info s ∧ (legalInfo c info = true ∨ 256 < s.pc ∧ info = .oob .memory s.pc) := by
  obtain ⟨info, hs', hinfo, -⟩ | ⟨_, _, _, -, -, -, rfl⟩ | ⟨_, -, -, rfl⟩ := stepWith_cases h
  · exact ⟨info, hs', hinfo⟩
  · exact absurd rfl hne
  · exact absurd rfl hne

/-- Settles O38: the step took a fault, which writes what R802 says. -/
theorem faultStepWritesOnlyTheReport : Obligations.FaultStepWritesOnlyTheReport := by
  unfold Obligations.FaultStepWritesOnlyTheReport
  intro c s s' f h hnone hf
  obtain ⟨info, rfl, -⟩ := eq_takeFault_of_fault_ne h (by simp [hf, hnone])
  obtain rfl : _ = f := by simpa using hf
  exact ⟨rfl, rfl, rfl⟩

/-- Settles O28: the context of the fault that the step took is not a tag (R621). -/
theorem noStepReportsUnsupportedOperation : Obligations.NoStepReportsUnsupportedOperation := by
  unfold Obligations.NoStepReportsUnsupportedOperation
  intro c s s' f h hnone hf
  obtain ⟨info, rfl, hinfo⟩ := eq_takeFault_of_fault_ne h (by simp [hf, hnone])
  obtain rfl : _ = f := by simpa using hf
  cases info with
  | oob sp n => simp [faultKindOf]
  | opcode b => simp [faultKindOf]
  | tag t => simp [legalInfo] at hinfo

/-- Settles O36: the three outcomes of `stepWith_cases`, told apart by the run state. -/
theorem pcSequencerFollowsR406 : Obligations.PcSequencerFollowsR406 := by
  unfold Obligations.PcSequencerFollowsR406
  intro c s s' h
  have hrun := (stepWith_next h).1
  obtain ⟨info, rfl, -⟩ | ⟨i, x, o, hf, hi, hlen, rfl⟩ | ⟨a, -, -, rfl⟩ := stepWith_cases h
  · exact ⟨fun hs => by simp at hs, fun _ => rfl⟩
  · refine ⟨fun _ => ⟨hlen, ?_⟩, fun hs => by simp [hrun] at hs⟩
    obtain ⟨a, b, rfl | rfl⟩ | ⟨a, rfl⟩ := hi
    · exact .inl ⟨a, b, .inl hf, rfl⟩
    · exact .inl ⟨a, b, .inr hf, rfl⟩
    · exact .inr ⟨a, hf, rfl⟩
  · exact ⟨fun hs => by simp at hs, fun _ => rfl⟩

/-- A step into HALTED fetched an HLT and halted, or fetched none and took a fault. -/
theorem stepWith_halted {c : Opcodes} {s s' : State} (h : stepWith c s = .next s') (hs : s'.status = .halted) :
    (∃ a, fetchInstr c s.mem s.pc = .ok (.hlt a) ∧ s.pc ≤ 254 ∧ s' = halt s) ∨
    ((∀ a, fetchInstr c s.mem s.pc ≠ .ok (.hlt a)) ∧ ∃ info, s' = takeFault info s) := by
  obtain ⟨info, hs', -, hno⟩ | ⟨_, _, _, -, -, -, rfl⟩ | ⟨a, hf, hlen, hs'⟩ := stepWith_cases h
  · exact .inr ⟨hno, info, hs'⟩
  · simp [(stepWith_next h).1] at hs
  · exact .inl ⟨a, hf, by omega, hs'⟩

/-- Settles O42: a step into HALTED that took no fault is an HLT's. -/
theorem cleanEndComesOnlyFromHlt : Obligations.CleanEndComesOnlyFromHlt := by
  unfold Obligations.CleanEndComesOnlyFromHlt
  rintro c s s' h ⟨hs, hnone⟩
  obtain hhlt | ⟨-, info, rfl⟩ := stepWith_halted h hs
  · exact hhlt
  · simp at hnone

/-- After a failed load or a finished run the pins change nothing (R116). -/
theorem applyPins_of_ended {e : Engine} (he : e.phase = .failed ∨ e.phase = .finished) (c : Opcodes) (p : PinsIn) :
    (applyPins c p e).1 = e := by
  have hnot : ¬ (e.phase = .constructed ∨ e.phase = .loaded) := by
    obtain he | he := he <;> simp [he]
  unfold applyPins
  split
  · rfl
  · rfl
  · rw [if_neg hnot]
  · rw [if_neg hnot]

/-- No operation of the interface changes a finished engine (R114, R116). -/
theorem finished_engine_keeps {e : Engine} (he : e.phase = .finished) (c : Opcodes) (img : List Byte)
    (src : Option (List (List Char))) (p : PinsIn) :
    (loadImage img e).1 = e ∧ (loadSource src e).1 = e ∧ (runEngine c e).1 = e ∧ (applyPins c p e).1 = e := by
  exact ⟨by simp [loadImage, he], by simp [loadSource, he], by simp [runEngine, he], applyPins_of_ended (.inr he) c p⟩

/-- Settles O43: steps by `stepWith_next`, `stepWith_halted` and `eq_takeFault_of_fault_ne`, the interface by
`finished_engine_keeps`. -/
theorem haltedIsTerminal : Obligations.HaltedIsTerminal := by
  unfold Obligations.HaltedIsTerminal
  refine ⟨rfl, fun c s s' h => (stepWith_next h).1, fun c e img src p _ he => finished_engine_keeps he c img src p,
    fun a s s' h => ?_, fun c s s' h hne => ?_, fun c s s' h hs => ?_⟩
  · obtain rfl : halt s = s' := by simpa [exec_hlt] using h
    rfl
  · obtain ⟨info, rfl, -⟩ := eq_takeFault_of_fault_ne h hne
    rfl
  · obtain ⟨a, hf, -, hs'⟩ | hfault := stepWith_halted h hs
    · exact .inl ⟨a, hf, hs'⟩
    · exact .inr hfault

/-- A step with no output event appends nothing. -/
theorem append_outputEvents_of_out_eq {s s' : State} (h : s'.out = s.out) (o : List Byte) : o = o ++ outputEvents s s' := by
  rw [outputEvents_eq_nil h, List.append_nil]

/-- No instruction reads the log or the report (R110). -/
theorem exec_with_other_log_and_report {i : Instr} {s s' : State} (h : exec i s = .next s') (o : List Byte)
    (f : Option FaultReport) :
    ∃ t, exec i { s with out := o, fault := f } = .next t ∧
      t.mem = s'.mem ∧ t.x = s'.x ∧ t.pc = s'.pc ∧ t.status = s'.status ∧ t.out = o ++ outputEvents s s' := by
  obtain ⟨info, -, hi⟩ | ⟨a, b, ra, -, -, hi⟩ | ⟨a, ra, -, -, hi⟩ | ⟨a, b, ra, rb, -, -, -, hi⟩ | ⟨a, -, hi⟩ := exec_cases i
  all_goals
    obtain rfl := Host.Outcome.next.inj ((hi s).symm.trans h)
    refine ⟨_, hi _, rfl, rfl, rfl, rfl, ?_⟩
  case inr.inr.inl => rw [outputEvents_of_append (vs := [getReg s.x ra]) rfl]; rfl
  all_goals exact append_outputEvents_of_out_eq rfl o

/-- Settles O40: the fetch reads memory and pc alone, and the instruction neither log nor report. -/
theorem noStepReadsTheLogOrTheReport : Obligations.NoStepReadsTheLogOrTheReport := by
  unfold Obligations.NoStepReadsTheLogOrTheReport
  intro c s s' o f h
  obtain ⟨hrun, ⟨info, hf, rfl⟩ | ⟨i, hf, he⟩⟩ := stepWith_next h
  · exact ⟨_, stepWith_of_fetch_error hrun hf, rfl, rfl, rfl, rfl, append_outputEvents_of_out_eq rfl o⟩
  · obtain ⟨t, ht, hrest⟩ := exec_with_other_log_and_report he o f
    exact ⟨t, (stepWith_of_fetch_ok (s := { s with out := o, fault := f }) hrun hf).trans ht, hrest⟩

/-- After the same write to the register that an index selects, two files agree there and keep their other registers. -/
theorem getReg_setReg_of_index {a : Byte} {ra : Fin 8} (ha : regOperand a = .ok ra) (x y : RegFile) (v : Byte) (r : Fin 8) :
    (decide (a.toNat = r.val) = true → getReg (setReg y ra v) r = getReg (setReg x ra v) r) ∧
    (decide (a.toNat = r.val) = false →
      getReg (setReg y ra v) r = getReg y r ∧ getReg (setReg x ra v) r = getReg x r) := by
  constructor
  · intro hr
    obtain rfl : ra = r := Fin.ext ((regOperand_ok_iff.mp ha).symm.trans (of_decide_eq_true hr))
    rw [getReg_setReg_same, getReg_setReg_same]
  · intro hr
    have hne := val_ne_of_index_ne ha hr
    exact ⟨getReg_setReg_of_ne hne y v, getReg_setReg_of_ne hne x v⟩

theorem index_lt {a : Byte} {ra : Fin 8} (ha : regOperand a = .ok ra) : a.toNat < numRegs :=
  regOperand_ok_iff.mp ha ▸ ra.isLt

/-- R103 for an instruction: in a state with another register file that agrees on the registers it reads, it does the same. -/
theorem exec_with_other_registers {i : Instr} {s s' : State} {y : RegFile} (h : exec i s = .next s')
    (hread : ∀ r : Fin 8, readsReg i r = true → getReg y r = getReg s.x r) :
    ∃ t, exec i { s with x := y } = .next t ∧ t = { s' with x := t.x } ∧
      (∀ r : Fin 8, i.regsInRange = true → writesReg i r = true → getReg t.x r = getReg s'.x r) ∧
      (∀ r : Fin 8, writesReg i r = false → getReg t.x r = getReg y r ∧ getReg s'.x r = getReg s.x r) ∧
      (i.regsInRange = false → t.x = y ∧ s'.x = s.x) := by
  obtain ⟨info, hbad, hi⟩ | ⟨a, b, ra, rfl, ha, hi⟩ | ⟨a, ra, rfl, ha, hi⟩ | ⟨a, b, ra, rb, rfl, ha, hb, hi⟩ | ⟨a, rfl, hi⟩ :=
    exec_cases i
  all_goals
    obtain rfl := Host.Outcome.next.inj ((hi s).symm.trans h)
    have ht := hi { s with x := y }
  case inl =>
    refine ⟨_, ht, rfl, fun r hrange hw => ?_, fun _ _ => ⟨rfl, rfl⟩, fun _ => ⟨rfl, rfl⟩⟩
    obtain hfalse | ⟨op, rfl⟩ := hbad
    · simp [hfalse] at hrange
    · simp [writesReg] at hw
  case inr.inl =>
    have hreg := getReg_setReg_of_index ha s.x y b
    refine ⟨_, ht, rfl, fun r _ => (hreg r).1, fun r => (hreg r).2, fun hr => ?_⟩
    simp [Instr.regsInRange, index_lt ha] at hr
  case inr.inr.inl =>
    simp only [hread ra (by simp [readsReg, regOperand_ok_iff.mp ha])] at ht
    exact ⟨_, ht, rfl, fun r _ hw => by simp [writesReg] at hw, fun _ _ => ⟨rfl, rfl⟩, fun _ => ⟨rfl, rfl⟩⟩
  case inr.inr.inr.inl =>
    simp only [hread ra (by simp [readsReg, regOperand_ok_iff.mp ha]),
      hread rb (by simp [readsReg, regOperand_ok_iff.mp hb])] at ht
    have hreg := getReg_setReg_of_index ha s.x y (getReg s.x ra * getReg s.x rb)
    refine ⟨_, ht, rfl, fun r _ => (hreg r).1, fun r => (hreg r).2, fun hr => ?_⟩
    simp [Instr.regsInRange, index_lt ha, index_lt hb] at hr
  case inr.inr.inr.inr =>
    exact ⟨_, ht, rfl, fun r _ hw => by simp [writesReg] at hw, fun _ _ => ⟨rfl, rfl⟩, fun _ => ⟨rfl, rfl⟩⟩

/-- Settles O19: for an instruction `exec_with_other_registers`; a fault of the fetch writes no register and reads none. -/
theorem registerAccessFollowsR103 : Obligations.RegisterAccessFollowsR103 := by
  unfold Obligations.RegisterAccessFollowsR103
  refine ⟨fun i s s' y h hread => exec_with_other_registers h hread, fun c s y info hs hf => ?_⟩
  exact ⟨_, stepWith_of_fetch_error hs hf, rfl, stepWith_of_fetch_error (s := { s with x := y }) hs hf⟩

end Sys2Proof.Machine
end

section
/-! PROOFS of the statements about memory and reset (10_state.md, 20_memory.md). -/

namespace Sys2Proof.Machine

/-- Settles O7: the reset memory lists no cell, and every register of the file is 0. -/
theorem resetLeavesTheStatedValues : Obligations.ResetLeavesTheStatedValues := by
  unfold Obligations.ResetLeavesTheStatedValues
  refine ⟨fun addr haddr => ?_, fun r => ?_, rfl, rfl, rfl, rfl⟩
  · rw [memRead_of_lt haddr]
    rfl
  · simp [getReg]

/-- A validated write is refused at the bound of 256 (R204). -/
theorem memWrite_of_ge {addr : Nat} (h : 256 ≤ addr) (m : Memory) (v : Nat) :
    memWrite m addr v = .error (.addressOutOfRange addr) := by
  simp [memWrite, memSize, Nat.not_lt.mpr h]

/-- Settles O9: in range the write is `putCell`, whose reads are `cellAt_putCell_of_wf`; each refusal is a branch of `memWrite`. -/
theorem memoryWriteReadRoundTrip : Obligations.MemoryWriteReadRoundTrip := by
  unfold Obligations.MemoryWriteReadRoundTrip
  intro m addr v hm
  refine ⟨fun ha hv => ⟨putCell m addr (BitVec.ofNat 8 v), by simp [memWrite, memSize, ha, hv], ?_, fun other hne => ?_⟩,
    fun ha => memWrite_of_ge ha m v, fun ha hv => by simp [memWrite, memSize, ha, Nat.not_lt.mpr hv]⟩
  · rw [memRead_of_lt ha, cellAt_putCell_of_wf hm, if_pos rfl]
  · simp only [memRead, cellAt_putCell_of_wf hm, if_neg hne]

@[simp] theorem cellAt_cons_self (k : Nat) (v : Byte) (rest : Memory) : cellAt ((k, v) :: rest) k = v := by
  simp [cellAt]

/-- A canonical list that holds something at an address has entries from no later address on. -/
theorem le_of_cellAt_ne_zero {m : Memory} {lo a : Nat} (hm : cellsFrom lo m = true) (ha : cellAt m a ≠ 0#8) : lo ≤ a :=
  Nat.le_of_not_lt fun hlt => ha (cellAt_eq_zero_of_lt hm hlt)

/-- A canonical list is determined by what its cells hold. -/
theorem eq_of_cellAt_eq {m m' : Memory} {lo lo' : Nat} (hm : cellsFrom lo m = true) (hm' : cellsFrom lo' m' = true)
    (h : ∀ a, a < 256 → cellAt m a = cellAt m' a) : m = m' := by
  induction m generalizing m' lo lo' with
  | nil =>
    cases m' with
    | nil => rfl
    | cons cell rest =>
      obtain ⟨k, v⟩ := cell
      obtain ⟨-, hk, hv, -⟩ := cellsFrom_cons.mp hm'
      exact absurd (by simpa [cellAt] using (h k hk).symm) hv
  | cons cell rest ih =>
    obtain ⟨k, v⟩ := cell
    obtain ⟨-, hk, hv, hrest⟩ := cellsFrom_cons.mp hm
    cases m' with
    | nil => exact absurd (by simpa [cellAt] using h k hk) hv
    | cons cell' rest' =>
      obtain ⟨k', v'⟩ := cell'
      obtain ⟨-, hk', hv', hrest'⟩ := cellsFrom_cons.mp hm'
      obtain rfl : k = k' := by
        refine Nat.le_antisymm ?_ ?_
        · refine le_of_cellAt_ne_zero (cellsFrom_cons.mpr ⟨le_rfl, hk, hv, hrest⟩) ?_
          rwa [h k' hk', cellAt_cons_self]
        · refine le_of_cellAt_ne_zero (cellsFrom_cons.mpr ⟨le_rfl, hk', hv', hrest'⟩) ?_
          rwa [← h k hk, cellAt_cons_self]
      obtain rfl : v = v' := by simpa using h k hk
      rw [ih hrest hrest' fun a ha => ?_]
      obtain hle | hgt := Nat.lt_or_ge a (k + 1)
      · rw [cellAt_eq_zero_of_lt hrest hle, cellAt_eq_zero_of_lt hrest' hle]
      · simpa [cellAt, show k ≠ a by omega] using h a ha

/-- Settles O10: equal reads are equal cells, and a canonical list is determined by its cells. -/
theorem equalReadsAreEqualMemories : Obligations.EqualReadsAreEqualMemories := by
  unfold Obligations.EqualReadsAreEqualMemories
  intro m m' hm hm' h
  refine eq_of_cellAt_eq hm hm' fun a ha => ?_
  simpa [memRead_of_lt ha] using h a ha

end Sys2Proof.Machine
end

section
/-! PROOFS of the statements about whole runs, loading and the interface (40_execution_engine.md, 70_reset_and_hazards.md). -/

namespace Sys2Proof.Machine

theorem runFor_of_next {c : Opcodes} {s s' : State} (h : stepWith c s = .next s') (n : Nat) :
    runFor c (n + 1) s = runFor c n s' := by
  simp [runFor, h]

/-- A halted engine stays as it is. -/
theorem runFor_of_halted {s : State} (h : s.status = .halted) (c : Opcodes) (n : Nat) : runFor c n s = s := by
  cases n with
  | zero => rfl
  | succ n => simp [runFor, stepWith_of_halted h]

/-- Settles O34: the step is refused, and the run takes none. -/
theorem haltedEngineTakesNoStep : Obligations.HaltedEngineTakesNoStep := by
  unfold Obligations.HaltedEngineTakesNoStep
  exact fun c s h => ⟨stepWith_of_halted h, runFor_of_halted h c 129⟩

/-- What every step keeps holds after a run. -/
theorem runFor_keeps {c : Opcodes} {P : State → Prop} (hstep : ∀ s s', P s → stepWith c s = .next s' → P s') (n : Nat)
    {s : State} (hs : P s) : P (runFor c n s) := by
  induction n generalizing s with
  | zero => exact hs
  | succ n ih =>
    cases h : stepWith c s with
    | next s' => rw [runFor_of_next h]; exact ih (hstep s s' hs h)
    | fault f => simpa [runFor, h] using hs
    | refused r => simpa [runFor, h] using hs

/-- Enough steps end in HALTED: a step that leaves the engine running raises the pc by 2 at least, and a pc of 256 faults
(R412). -/
theorem runFor_halts {c : Opcodes} {n : Nat} {s : State} (hn : 1 ≤ n) (hpc : 258 ≤ s.pc + 2 * n) :
    (runFor c n s).status = .halted := by
  induction n generalizing s with
  | zero => omega
  | succ n ih =>
    cases hs : s.status with
    | halted => rwa [runFor_of_halted hs]
    | running =>
      obtain ⟨s', h⟩ := stepIsTotalWhileRunning c s hs
      rw [runFor_of_next h]
      cases hs' : s'.status with
      | halted => rwa [runFor_of_halted hs']
      | running =>
        obtain ⟨hle, hmoved⟩ := (pcSequencerFollowsR406 c s s' h).1 hs'
        have hge : s.pc + 2 ≤ s'.pc := by
          obtain ⟨_, _, -, hpc'⟩ | ⟨_, -, hpc'⟩ := hmoved
          · omega
          · omega
        exact ih (by omega) (by omega)

/-- Steps after a run that ended change nothing. -/
theorem runFor_add_of_halted (c : Opcodes) (m n : Nat) (s : State) (h : (runFor c m s).status = .halted) :
    runFor c (m + n) s = runFor c m s := by
  induction m generalizing s with
  | zero => exact (Nat.zero_add n).symm ▸ runFor_of_halted h c n
  | succ m ih =>
    cases hs : stepWith c s with
    | next s' =>
      rw [Nat.succ_add, runFor_of_next hs, runFor_of_next hs]
      rw [runFor_of_next hs] at h
      exact ih s' h
    | fault f => simp [Nat.succ_add, runFor, hs]
    | refused r => simp [Nat.succ_add, runFor, hs]

theorem run_halted (c : Opcodes) (s : State) : (run c s).status = .halted :=
  runFor_halts (by omega) (by omega)

theorem run_legal {c : Opcodes} {s : State} (h : LegalState c s) : LegalState c (run c s) :=
  runFor_keeps (fun _ _ => stepWith_legal) 129 h

theorem run_mem (c : Opcodes) (s : State) : (run c s).mem = s.mem :=
  runFor_keeps (P := fun t => t.mem = s.mem) (fun _ _ hm h => (stepWith_mem h).trans hm) 129 rfl

/-- Settles O46: 129 steps raise the pc past 256 (`runFor_halts`), and the invariant is carried through them. -/
theorem everyRunEndsWithin129Steps : Obligations.EveryRunEndsWithin129Steps := by
  unfold Obligations.EveryRunEndsWithin129Steps
  refine ⟨fun c s => ⟨run_halted c s, fun n hn => ?_⟩, fun c s => run_legal⟩
  obtain ⟨extra, rfl⟩ := Nat.exists_eq_add_of_le hn
  exact runFor_add_of_halted c 129 extra s (run_halted c s)

theorem reset_legal (c : Opcodes) : LegalState c State.reset :=
  ⟨reset_mem_wf, Nat.zero_le _, fun _ => rfl, fun _ h => nomatch h⟩

/-- A load changes memory alone, to a canonical one, and so keeps the invariant. -/
theorem loadState_legal {c : Opcodes} {img : List Byte} {s s' : State} (hs : LegalState c s) (h : loadState img s = .ok s') :
    LegalState c s' := by
  have hwf := loadState_wf hs.mem_wf h
  unfold loadState at h
  split at h
  · simp at h
  · obtain rfl := Except.ok.inj h
    exact ⟨hwf, hs.pc_le, hs.running_no_fault, hs.report_ok⟩

/-- Settles O45: reset meets the invariant, and a load keeps it. -/
theorem resetMeetsTheInvariant : Obligations.ResetMeetsTheInvariant := by
  unfold Obligations.ResetMeetsTheInvariant
  exact fun c => ⟨reset_legal c, fun img s => loadState_legal (reset_legal c)⟩

/-- An image that reaches past the end of memory fails at address 256 (R907). -/
theorem loadCells_oversized {addr : Nat} {img : List Byte} (ha : addr ≤ 256) (hlen : 256 < addr + img.length) (m : Memory) :
    loadCells m addr img = .error (.addressOutOfRange 256) := by
  induction img generalizing m addr with
  | nil => simp at hlen; omega
  | cons v rest ih =>
    rw [List.length_cons] at hlen
    obtain hlt | rfl := Nat.lt_or_eq_of_le ha
    · simpa [loadCells, memWrite_of_lt hlt] using ih hlt (by omega) _
    · simp [loadCells, memWrite_of_ge (Nat.le_refl 256)]

/-- Settles O48: the write at address 256 is refused, and the failed load keeps the constructed state. -/
theorem oversizedImageFailsTheLoad : Obligations.OversizedImageFailsTheLoad := by
  unfold Obligations.OversizedImageFailsTheLoad
  intro img hlen
  simp [loadImage, construct, loadState, loadCells_oversized (Nat.zero_le 256) (by omega : 256 < 0 + img.length)]

/-- An image that fits is loaded into a constructed engine by placing it from address 0 (R905, R906). -/
theorem loadImage_construct {img : List Byte} (hfit : img.length ≤ 256) :
    loadImage img construct = (⟨{ State.reset with mem := putBytes [] 0 img }, .loaded⟩, none) := by
  simp [loadImage, construct, loadState_eq_putBytes hfit]

/-- Settles O51: the load places the image, the run ends in HALTED (R412) with the invariant, and no step writes memory. -/
theorem loadedImageRunsToItsEnd : Obligations.LoadedImageRunsToItsEnd := by
  unfold Obligations.LoadedImageRunsToItsEnd
  intro c img hfit
  rw [loadImage_construct hfit]
  refine ⟨rfl, rfl, run c _, rfl, run_halted c _, run_legal (loadState_legal (reset_legal c) (loadState_eq_putBytes hfit _)),
    fun k hk => ?_⟩
  have himage := cellAt_putBytes_inside (m := []) rfl (by omega : 0 + img.length ≤ 256) hk
  rw [Nat.zero_add] at himage
  rw [run_mem, memRead_of_lt (by omega), himage]

/-- The engine after a failed load: its state is as before, and it is in the failed phase (R909). -/
theorem loadImage_failed {img : List Byte} {e e' : Engine} {why : LoadStop} (h : loadImage img e = (e', some (.load why))) :
    e' = ⟨e.st, .failed⟩ := by
  unfold loadImage at h
  split at h
  · split at h
    · simp at h
    · exact (Prod.ext_iff.mp h).1.symm
  all_goals simp at h

theorem loadSource_failed {src : Option (List (List Char))} {e e' : Engine} {why : LoadStop}
    (h : loadSource src e = (e', some (.load why))) : e' = ⟨e.st, .failed⟩ := by
  unfold loadSource at h
  split at h
  · split at h
    · exact loadImage_failed h
    · exact (Prod.ext_iff.mp h).1.symm
  all_goals simp at h

/-- Settles O49: a failed load leaves the failed phase, in which every operation is refused. -/
theorem failedLoadNeverRuns : Obligations.FailedLoadNeverRuns := by
  unfold Obligations.FailedLoadNeverRuns
  intro c e e' why h
  obtain rfl : e' = ⟨e.st, .failed⟩ := by
    obtain ⟨img, himg⟩ | ⟨src, hsrc⟩ := h
    · exact loadImage_failed himg
    · exact loadSource_failed hsrc
  exact ⟨rfl, rfl, applyPins_of_ended (.inl rfl) c, fun _ => rfl, fun _ => rfl, rfl⟩

/-- Settles O50: each operation by the phase it is called in. -/
theorem interfaceKeepsItsOrder : Obligations.InterfaceKeepsItsOrder := by
  unfold Obligations.InterfaceKeepsItsOrder
  rintro c img ⟨st, phase⟩
  cases phase with
  | constructed =>
    refine ⟨fun h => ⟨rfl, ?_⟩, by simp [runEngine], fun h => by simp at h, fun s h => by simp [observe] at h⟩
    unfold loadImage at h ⊢
    cases hl : loadState img st with
    | ok s => rfl
    | error why => simp [hl] at h
  | loaded =>
    exact ⟨fun h => by simp [loadImage] at h, by simp [runEngine], fun _ => ⟨rfl, rfl, rfl⟩, fun s h => by simp [observe] at h⟩
  | failed =>
    exact ⟨fun h => by simp [loadImage] at h, by simp [runEngine], fun h => by simp at h, fun s h => by simp [observe] at h⟩
  | finished =>
    exact ⟨fun h => by simp [loadImage] at h, by simp [runEngine], fun h => by simp at h, fun _ _ => rfl⟩

/-- One more byte is placed at the address after the others. -/
theorem putBytes_append_singleton {addr : Nat} {bytes : List Byte} (hfit : addr + bytes.length < 256) (m : Memory) (v : Byte) :
    putBytes m addr (bytes ++ [v]) = putCell (putBytes m addr bytes) (addr + bytes.length) v := by
  induction bytes generalizing m addr with
  | nil => exact putBytes_cons_of_lt hfit m v []
  | cons w rest ih =>
    rw [List.length_cons] at hfit
    have ha : addr < 256 := by omega
    rw [List.cons_append, putBytes_cons_of_lt ha, putBytes_cons_of_lt ha, ih (by omega), List.length_cons]
    congr 1
    omega

/-- Before `start`, a byte on the pins is put into its cell, and the engine is loaded (R116). -/
theorem applyPins_load {e : Engine} (he : e.phase = .constructed ∨ e.phase = .loaded) (c : Opcodes) (addr : BitVec 8) (v : Byte) :
    (applyPins c ⟨true, addr, v, false⟩ e).1 = ⟨{ e.st with mem := putCell e.st.mem addr.toNat v }, .loaded⟩ := by
  simp [applyPins, he]

/-- The engine after the pins have written the first `n` bytes of an image. -/
def afterPinWrites (img : List Byte) (n : Nat) : Engine :=
  ⟨{ State.reset with mem := putBytes [] 0 (img.take n) }, if n = 0 then .constructed else .loaded⟩

theorem foldl_applyPins_eq (c : Opcodes) (img : List Byte) {n : Nat} (hn : n ≤ img.length) (hfit : img.length ≤ 256) :
    (List.range n).foldl
      (fun e k => (applyPins c ⟨true, BitVec.ofNat 8 k, img.getD k 0, false⟩ e).1) construct = afterPinWrites img n := by
  induction n with
  | zero => rfl
  | succ n ih =>
    have hlt : n < img.length := hn
    have hphase : (afterPinWrites img n).phase = .constructed ∨ (afterPinWrites img n).phase = .loaded := by
      by_cases h0 : n = 0
      · exact .inl (if_pos h0)
      · exact .inr (if_neg h0)
    have hcell := putBytes_append_singleton (addr := 0) (bytes := img.take n) (by rw [List.length_take]; omega) [] img[n]
    rw [List.length_take, Nat.zero_add, Nat.min_eq_left hlt.le, List.take_append_getElem] at hcell
    rw [List.range_succ, List.foldl_append, ih (by omega), List.foldl_cons, List.foldl_nil, applyPins_load hphase,
      BitVec.toNat_ofNat, Nat.mod_eq_of_lt (by omega), List.getD_eq_getElem _ _ hlt]
    simp [afterPinWrites, hcell]

/-- Settles O52: after all its bytes the pins have placed the whole image, as the load does. -/
theorem pinWritesAreTheLoad : Obligations.PinWritesAreTheLoad := by
  unfold Obligations.PinWritesAreTheLoad
  intro c img hne hfit
  rw [foldl_applyPins_eq c img le_rfl hfit, loadImage_construct hfit]
  simp [afterPinWrites, hne]

/-- Settles O58: the cells from the pc on hold the word's bytes, so the fetch gives what they decode to. -/
theorem placedWordIsRunNext : Obligations.PlacedWordIsRunNext := by
  unfold Obligations.PlacedWordIsRunNext
  intro s nbits w i hs hm hpc hd
  have hfit : s.pc + (tableBytes nbits w).length ≤ 256 := by simp [tableBytes]; omega
  constructor
  · obtain ⟨rest, hd⟩ : ∃ rest, decode Opcodes.default (tableBytes nbits w) = .ok (i, rest) := by
      unfold decodeTableWord at hd
      split at hd
      · obtain rfl := Option.some.inj hd
        exact ⟨_, ‹_›⟩
      · simp at hd
    refine stepWith_of_fetch_ok (s := s.withFetchWord nbits w) hs (fetchInstr_of_decode hd fun k b hb => ?_)
    obtain ⟨hk, rfl⟩ := List.getElem?_eq_some_iff.mp hb
    have hlt : s.pc + k < 256 := by omega
    exact memRead_eq_ok_iff.mpr ⟨hlt, cellAt_putBytes_inside hm hfit hk⟩
  · intro addr haddr
    have hlen : (tableBytes nbits w).length = 3 := rfl
    simp only [memRead, withFetchWord_mem, cellAt_putBytes_outside hm hfit (a := addr) (by omega)]

end Sys2Proof.Machine
end

section
/-! PROOFS of the statements about the parameters ARITH_OVERFLOW and UNWRITTEN_READ (10_state.md, 42_arithmetic_unit.md). -/

namespace Sys2Proof.Machine

theorem narrow_fault_of_lt {n : Nat} (h : n < 256) : narrow .fault n = .ok (BitVec.ofNat 8 n) := if_pos h

theorem narrow_fault_of_ge {n : Nat} (h : 256 ≤ n) : narrow .fault n = .error (.arithOverflow n) := if_neg (Nat.not_lt.mpr h)

/-- A result that does not narrow stops the model in the unit. -/
theorem alu_of_narrow_error {ov : ArithOverflow} {tag : Tag} {a b : Byte} {x : RegFile} {ra rb : Fin 8} {exact : Nat}
    {f : Fault} (ha : regOperand a = .ok ra) (hb : regOperand b = .ok rb)
    (he : exactResult tag (getReg x ra) (getReg x rb) = some exact) (hn : narrow ov exact = .error f) :
    alu ov tag a b x = .error (.model f) := by
  simp [alu, ha, hb, he, hn]

/-- Settles O29: below 256 both parameters narrow the product to the same byte; from 256 on `fault` does not narrow it. -/
theorem overflowFaultStopsExactlyOnOverflow : Obligations.OverflowFaultStopsExactlyOnOverflow := by
  unfold Obligations.OverflowFaultStopsExactlyOnOverflow
  intro a b s ha hb
  have hra := regOperand_of_lt ha
  have hrb := regOperand_of_lt hb
  refine ⟨fun hlt => ?_, fun hge => ?_⟩
  · rw [exec_mul_of_ok hra hrb, ← ofNat_exactProduct]
    exact execAlu_of_ok (alu_eq_ok hra hrb rfl (narrow_fault_of_lt hlt))
  · exact execAlu_of_model (alu_of_narrow_error hra hrb rfl (narrow_fault_of_ge hge))

theorem execUnder_wrap (i : Instr) (s : State) : execUnder .wrap i s = exec i s := by
  cases i <;> rfl

/-- An instruction that reads an unwritten register stops the model. -/
theorem execTracked_of_stop {cfg : Config} {i : Instr} {t : Tracked} {r : Fin 8}
    (h : unwrittenStop cfg.unwrittenRead t.written i = some r) : execTracked cfg i t = .fault (.unwrittenRead r) := by
  simp [execTracked, h]

/-- One that reads none does what it does under `ARITH_OVERFLOW` alone. -/
theorem execTracked_of_next {cfg : Config} {i : Instr} {t : Tracked} {s : State}
    (h : unwrittenStop cfg.unwrittenRead t.written i = none) (hs : execUnder cfg.arithOverflow i t.st = .next s) :
    execTracked cfg i t = .next ⟨s, if i.regsInRange then markWritten t.written (regsWritten i) else t.written⟩ := by
  simp [execTracked, h, hs]

theorem execTracked_of_fault {cfg : Config} {i : Instr} {t : Tracked} {f : Fault}
    (h : unwrittenStop cfg.unwrittenRead t.written i = none) (hf : execUnder cfg.arithOverflow i t.st = .fault f) :
    execTracked cfg i t = .fault f := by
  simp [execTracked, h, hf]

theorem stepUnder_of_fetch_error {cfg : Config} {t : Tracked} {info : FaultInfo} (hs : t.st.status = .running)
    (hf : fetchInstr cfg.opcodes t.st.mem t.st.pc = .error info) :
    stepUnder cfg t = .next { t with st := takeFault info t.st } := by
  simp [stepUnder, hs, hf]

theorem stepUnder_of_fetch_ok {cfg : Config} {t : Tracked} {i : Instr} (hs : t.st.status = .running)
    (hf : fetchInstr cfg.opcodes t.st.mem t.st.pc = .ok i) : stepUnder cfg t = execTracked cfg i t := by
  simp [stepUnder, hs, hf]

/-- Settles O30: what goes on under the parameters is `exec` of the same instruction; under the defaults nothing is stopped. -/
theorem optionalFaultsOnlyStop : Obligations.OptionalFaultsOnlyStop := by
  unfold Obligations.OptionalFaultsOnlyStop
  refine ⟨fun cfg t t' h => ?_, fun t hrun => ?_⟩
  · obtain ⟨hrun, ⟨info, hf, rfl⟩ | ⟨i, hf, he⟩⟩ := stepUnder_next h
    · exact stepWith_of_fetch_error hrun hf
    · obtain ⟨-, hexec, -⟩ := execTracked_next he
      rw [stepWith_of_fetch_ok hrun hf, execUnder_next hexec]
  · cases hf : fetchInstr Opcodes.default t.st.mem t.st.pc with
    | error info =>
      exact ⟨_, stepUnder_of_fetch_error (cfg := defaultConfig) hrun hf, stepWith_of_fetch_error hrun hf⟩
    | ok i =>
      obtain ⟨s', hs'⟩ := exec_total i t.st
      have ht := execTracked_of_next (cfg := defaultConfig) rfl ((execUnder_wrap i t.st).trans hs')
      exact ⟨_, (stepUnder_of_fetch_ok (cfg := defaultConfig) hrun hf).trans ht, (stepWith_of_fetch_ok hrun hf).trans hs'⟩

@[simp] theorem firstUnwritten_nil (written : Vector Bool 8) : firstUnwritten written [] = none := rfl

/-- The first operand looked at is the register to stop at, unless it is written. -/
theorem firstUnwritten_cons {i : Byte} {r : Fin 8} (hi : regOperand i = .ok r) (written : Vector Bool 8) (rest : List Byte) :
    firstUnwritten written (i :: rest) = if written[r] then firstUnwritten written rest else some r := by
  simp [firstUnwritten, hi]

theorem unwrittenStop_prn {a : Byte} (ha : a.toNat < 8) (written : Vector Bool 8) :
    unwrittenStop .fault written (.prn a) = if written[a.toNat] then none else some ⟨a.toNat, ha⟩ := by
  simp [unwrittenStop, Instr.regsInRange, numRegs, ha, regsRead, firstUnwritten_cons (regOperand_of_lt ha)]

theorem unwrittenStop_mul {a b : Byte} (ha : a.toNat < 8) (hb : b.toNat < 8) (written : Vector Bool 8) :
    unwrittenStop .fault written (.mul a b) =
      if written[a.toNat] then if written[b.toNat] then none else some ⟨b.toNat, hb⟩ else some ⟨a.toNat, ha⟩ := by
  simp [unwrittenStop, Instr.regsInRange, numRegs, ha, hb, regsRead, firstUnwritten_cons (regOperand_of_lt ha),
    firstUnwritten_cons (regOperand_of_lt hb)]

/-- An instruction with an index out of range reads nothing and marks nothing. -/
theorem execTracked_of_out_of_range {cfg : Config} {i : Instr} {t : Tracked} {s : State} (hrange : i.regsInRange = false)
    (hs : execUnder cfg.arithOverflow i t.st = .next s) : execTracked cfg i t = .next { t with st := s } := by
  have hstop : unwrittenStop cfg.unwrittenRead t.written i = none := by
    unfold unwrittenStop
    split <;> simp [hrange]
  rw [execTracked_of_next hstop hs, hrange]
  rfl

/-- Settles O31: with good indices the stop is at the first unwritten operand, with a bad one the index check comes first. -/
theorem unwrittenReadStopsPrnAndMul : Obligations.UnwrittenReadStopsPrnAndMul := by
  unfold Obligations.UnwrittenReadStopsPrnAndMul
  intro ov c a b t
  refine ⟨fun ha => ?_, fun ha => ?_, fun ha hb => ?_⟩
  case refine_1 =>
    refine ⟨fun hwa => ⟨?_, fun hb => ?_⟩, fun hwa => ⟨?_, fun hb => ⟨fun hwb => ?_, fun hwb => ?_⟩⟩⟩
    · exact execTracked_of_stop (by simp [unwrittenStop_prn ha, hwa])
    · exact execTracked_of_stop (by simp [unwrittenStop_mul ha hb, hwa])
    · have hexec := exec_prn_of_ok (regOperand_of_lt ha) t.st
      exact ⟨_, execTracked_of_next (by simp [unwrittenStop_prn ha, hwa]) hexec, hexec⟩
    · exact execTracked_of_stop (by simp [unwrittenStop_mul ha hb, hwa, hwb])
    · have hstop : unwrittenStop .fault t.written (.mul a b) = none := by simp [unwrittenStop_mul ha hb, hwa, hwb]
      exact ⟨fun s hs => ⟨_, execTracked_of_next hstop hs, rfl⟩, fun f hf => execTracked_of_fault hstop hf⟩
  case refine_2 =>
    have hbad := regOperand_of_ge ha
    exact ⟨execTracked_of_out_of_range (by simp [Instr.regsInRange, numRegs, ha]) (exec_prn_of_error hbad t.st),
      execTracked_of_out_of_range (by simp [Instr.regsInRange, numRegs, ha])
        (execAlu_of_raised (alu_of_error_left hbad ov .multiply b t.st.x))⟩
  case refine_3 =>
    exact execTracked_of_out_of_range (by simp [Instr.regsInRange, numRegs, hb])
      (execAlu_of_raised (alu_of_error_right (regOperand_of_lt ha) (regOperand_of_ge hb) ov .multiply t.st.x))

/-- The operand that an instruction writes names the register that the table of R103 has it write. -/
theorem exists_mem_regsWritten_iff {i : Instr} {r : Fin 8} :
    (∃ a ∈ regsWritten i, a.toNat = r.val) ↔ writesReg i r = true := by
  cases i <;> simp [regsWritten, writesReg]

/-- Settles O60: the record after an instruction is `markWritten` of what it writes, and a fault of the fetch leaves it. -/
theorem writtenRecordFollowsLdiAndMul : Obligations.WrittenRecordFollowsLdiAndMul := by
  unfold Obligations.WrittenRecordFollowsLdiAndMul
  refine ⟨fun r => by simp [trackedReset], fun cfg i t t' r h => ?_, fun cfg t t' info hf h => ?_⟩
  · obtain ⟨-, -, hw⟩ := execTracked_next h
    rw [hw]
    cases hrange : i.regsInRange with
    | false => simp
    | true => rw [if_pos rfl, markWritten_iff, exists_mem_regsWritten_iff, eq_self, true_and]
  · obtain ⟨-, ⟨_, -, rfl⟩ | ⟨i, hf', -⟩⟩ := stepUnder_next h
    · rfl
    · simp [hf] at hf'

end Sys2Proof.Machine
end

section
/-! PROOFS of the statements about the output pins and the output text (10_state.md, External interface). -/

namespace Sys2Proof.Machine

/-- Settles O53: a fault leaves the log, so there is no pulse; the other pins are the codes of its context. -/
theorem faultPinsFollowR116 : Obligations.FaultPinsFollowR116 := by
  unfold Obligations.FaultPinsFollowR116
  intro info s
  have hevents : outputEvents s (takeFault info s) = [] := outputEvents_eq_nil rfl
  refine ⟨rfl, rfl, by simp [pinsOut, hevents], rfl, ?_, ?_, fun hno => ?_, ?_, ?_, ?_⟩
  · rintro n rfl; rfl
  · rintro n rfl; rfl
  · cases info with
    | oob sp n => exact absurd rfl (hno sp n)
    | opcode b => rfl
    | tag t => rfl
  · rintro sp n rfl; exact ⟨rfl, rfl⟩
  · rintro b rfl; exact ⟨rfl, rfl⟩
  · rintro t rfl
    cases t with
    | add => exact ⟨rfl, rfl⟩
    | multiply => exact ⟨rfl, rfl⟩
    | other n => exact ⟨rfl, rfl⟩

/-- Settles O59: the two outcomes of `stepWith_out`; a pulse is a value appended to the log. -/
theorem outputPulsesExactlyOnACompletedPrn : Obligations.OutputPulsesExactlyOnACompletedPrn := by
  unfold Obligations.OutputPulsesExactlyOnACompletedPrn
  intro c s s' h
  refine ⟨fun a hf hrun => ?_, fun hno => ?_, by simp [pinsOut], by simp [pinsOut, Option.isSome_iff_ne_none]⟩
  · obtain ⟨hlt, hout, -⟩ := (outputLogGrowsOnlyByPrn c s s' h).1 a hf hrun
    have hevents := outputEvents_of_append hout
    exact ⟨hlt, by simp [pinsOut, hevents], by simp [pinsOut, hevents]⟩
  · have hevents := outputEvents_eq_nil ((outputLogGrowsOnlyByPrn c s s' h).2 hno)
    exact ⟨by simp [pinsOut, hevents], by simp [pinsOut, hevents]⟩

end Sys2Proof.Machine
end

section
/-! PROOFS of the statements about decimal text and the printed log (10_state.md, External interface). -/

namespace Sys2Proof.Machine

theorem toNat_decimalDigit {d : Nat} (h : d < 10) : (decimalDigit d).toNat = 48 + d := by
  revert d
  decide

theorem decimalDigit_range {d : Nat} (h : d < 10) : '0' ≤ decimalDigit d ∧ decimalDigit d ≤ '9' := by
  revert d
  decide

theorem isBlank_decimalDigit {d : Nat} (h : d < 10) : isBlank (decimalDigit d) = false := by
  revert d
  decide

/-- No digit is a character outside `0` to `9`. -/
theorem decimalDigit_ne {d : Nat} (h : d < 10) {ch : Char} (hch : ch.toNat < 48 ∨ 57 < ch.toNat) : decimalDigit d ≠ ch := by
  rintro rfl
  rw [toNat_decimalDigit h] at hch
  omega

theorem eq_zero_of_decimalDigit_eq {d : Nat} (h : d < 10) (hzero : decimalDigit d = '0') : d = 0 := by
  have hvalue := toNat_decimalDigit h
  rw [hzero] at hvalue
  exact Nat.add_left_cancel hvalue.symm

/-- One more digit at the end of a decimal text. -/
theorem decimalValue_append_digit {text : List Char} {n d : Nat} (htext : decimalValue text = some n) (hd : d < 10) :
    decimalValue (text ++ [decimalDigit d]) = some (10 * n + d) := by
  unfold decimalValue at htext ⊢
  rw [List.foldl_append, htext]
  simp [decimalDigit_range hd, toNat_decimalDigit hd]

/-- Settles O55: by the number of digits, each digit below 10 and the first one not 0 where there are more. -/
theorem decimalDigitsReadBack : Obligations.DecimalDigitsReadBack := by
  unfold Obligations.DecimalDigitsReadBack
  intro v
  have hv : v.toNat < 256 := v.isLt
  have empty : decimalValue [] = some 0 := rfl
  simp only [decimalDigits]
  split
  · rename_i h10
    refine ⟨?_, by simp, by simp, fun h => ?_⟩
    · simpa using decimalValue_append_digit empty h10
    · exact BitVec.eq_of_toNat_eq (eq_zero_of_decimalDigit_eq h10 (by simpa using h))
  split
  · rename_i h10 h100
    have hd1 : v.toNat / 10 < 10 := by omega
    have hd0 : v.toNat % 10 < 10 := by omega
    have hvalue := decimalValue_append_digit (decimalValue_append_digit empty hd1) hd0
    refine ⟨hvalue.trans (congrArg some (by omega)), by simp, by simp, fun h => ?_⟩
    have hfirst := eq_zero_of_decimalDigit_eq hd1 (by simpa using h)
    omega
  · rename_i h10 h100
    have hd2 : v.toNat / 100 < 10 := by omega
    have hd1 : v.toNat / 10 % 10 < 10 := by omega
    have hd0 : v.toNat % 10 < 10 := by omega
    have hvalue := decimalValue_append_digit (decimalValue_append_digit (decimalValue_append_digit empty hd2) hd1) hd0
    refine ⟨hvalue.trans (congrArg some (by omega)), by simp, by simp, fun h => ?_⟩
    have hfirst := eq_zero_of_decimalDigit_eq hd2 (by simpa using h)
    omega

/-- The decimal text of a byte is made of digit characters. -/
theorem mem_decimalDigits {v : Byte} {ch : Char} (h : ch ∈ decimalDigits v) : ∃ d < 10, ch = decimalDigit d := by
  have hv : v.toNat < 256 := v.isLt
  simp only [decimalDigits] at h
  split at h
  · exact ⟨_, ‹_›, by simpa using h⟩
  split at h
  · obtain rfl | rfl : ch = decimalDigit (v.toNat / 10) ∨ ch = decimalDigit (v.toNat % 10) := by simpa using h
    · exact ⟨_, by omega, rfl⟩
    · exact ⟨_, by omega, rfl⟩
  · obtain rfl | rfl | rfl : ch = decimalDigit (v.toNat / 100) ∨ ch = decimalDigit (v.toNat / 10 % 10) ∨
        ch = decimalDigit (v.toNat % 10) := by simpa using h
    · exact ⟨_, by omega, rfl⟩
    · exact ⟨_, by omega, rfl⟩
    · exact ⟨_, by omega, rfl⟩

/-- Nor is a character outside `0` to `9` in the text. -/
theorem ne_of_mem_decimalDigits {v : Byte} {ch other : Char} (h : ch ∈ decimalDigits v)
    (hother : other.toNat < 48 ∨ 57 < other.toNat) : ch ≠ other := by
  obtain ⟨d, hd, rfl⟩ := mem_decimalDigits h
  exact decimalDigit_ne hd hother

/-- Two bytes with the same decimal text are equal. -/
theorem decimalDigits_injective {v w : Byte} (h : decimalDigits v = decimalDigits w) : v = w := by
  have hv := (decimalDigitsReadBack v).1
  rw [h, (decimalDigitsReadBack w).1] at hv
  exact BitVec.eq_of_toNat_eq (Option.some.inj hv).symm

/-- Two texts that begin with a line are equal only if that line and the text after it are: the line feed is no digit. -/
theorem renderValue_append_inj {v w : Byte} {more more' : List Char} (h : renderValue v ++ more = renderValue w ++ more') :
    v = w ∧ more = more' := by
  have digits_of_line : ∀ (u : Byte) (rest : List Char),
      (renderValue u ++ rest).takeWhile (fun ch => ch ≠ '\n') = decimalDigits u := fun u rest => by
    have hdigits : ∀ ch ∈ decimalDigits u, decide (ch ≠ '\n') = true := fun ch hch =>
      decide_eq_true (ne_of_mem_decimalDigits hch (by decide))
    rw [renderValue, List.append_assoc, List.takeWhile_append_of_pos hdigits]
    simp
  have hvw : v = w := decimalDigits_injective (by rw [← digits_of_line v more, h, digits_of_line])
  subst hvw
  exact ⟨rfl, List.append_cancel_left h⟩

/-- Settles O56: the first lines of equal texts are equal, and so are the texts after them. -/
theorem renderedLogIsFaithful : Obligations.RenderedLogIsFaithful := by
  unfold Obligations.RenderedLogIsFaithful
  intro log
  induction log with
  | nil =>
    intro log' h
    cases log' with
    | nil => rfl
    | cons w rest' => simp [renderLog, renderValue] at h
  | cons v rest ih =>
    intro log' h
    cases log' with
    | nil => simp [renderLog, renderValue] at h
    | cons w rest' =>
      obtain ⟨rfl, hrest⟩ := renderValue_append_inj h
      rw [ih rest' hrest]

end Sys2Proof.Machine
end

section
/-! PROOFS of the statements about listings and assembly text (30_encoding.md, R312 to R314). -/

namespace Sys2Proof.Machine

/-- A text without white space. -/
def NoBlank (text : List Char) : Prop := ∀ ch ∈ text, isBlank ch = false

/-- A text that begins and ends with characters that are no white space. -/
def TightEnds (text : List Char) : Prop :=
  ∃ h : text ≠ [], isBlank (text.head h) = false ∧ isBlank (text.getLast h) = false

theorem tightEnds_of_noBlank {text : List Char} (hne : text ≠ []) (h : NoBlank text) : TightEnds text :=
  ⟨hne, h _ (List.head_mem hne), h _ (List.getLast_mem hne)⟩

theorem tightEnds_append {left right : List Char} (hl : TightEnds left) (hr : TightEnds right) (mid : List Char) :
    TightEnds (left ++ (mid ++ right)) := by
  obtain ⟨hl, hhead, -⟩ := hl
  obtain ⟨hr, -, hlast⟩ := hr
  refine ⟨by simp [hl], ?_, ?_⟩
  · rwa [List.head_append_of_ne_nil hl]
  · rwa [List.getLast_append_of_ne_nil _ (by simp [hr]), List.getLast_append_of_ne_nil _ hr]

theorem strip_of_tightEnds {text : List Char} (h : TightEnds text) : strip text = text := by
  obtain ⟨hne, hhead, hlast⟩ := h
  have hfront : text.dropWhile isBlank = text :=
    List.dropWhile_eq_self_iff.mpr fun _ => by simpa [List.head_eq_getElem] using hhead
  have hback : text.rdropWhile isBlank = text := List.rdropWhile_eq_self_iff.mpr fun _ => by simpa using hlast
  rw [strip, hfront]
  exact hback

theorem strip_space_cons (text : List Char) : strip (' ' :: text) = strip text := rfl

/-- The name before the first white space of a line. -/
theorem takeWhile_name {name : List Char} (hname : NoBlank name) (rest : List Char) :
    (name ++ ' ' :: rest).takeWhile (fun ch => !isBlank ch) = name := by
  rw [List.takeWhile_append_of_pos fun ch hch => by simp [hname ch hch], List.takeWhile_cons_of_neg (by decide), List.append_nil]

theorem dropWhile_name {name : List Char} (hname : NoBlank name) (rest : List Char) :
    (name ++ ' ' :: rest).dropWhile (fun ch => !isBlank ch) = ' ' :: rest := by
  rw [List.dropWhile_append_of_pos fun ch hch => by simp [hname ch hch], List.dropWhile_cons_of_neg (by decide)]

/-! ### Listings (R314, R908) -/

theorem mem_byteDigits {v : Byte} {ch : Char} (h : ch ∈ byteDigits v) : ch = '0' ∨ ch = '1' := by
  obtain ⟨k, -, rfl⟩ := List.mem_map.mp h
  cases v.getLsbD k
  · exact .inl rfl
  · exact .inr rfl

/-- The token of a listing line is its binary literal, whatever the comment. -/
theorem lineToken_listingLine (v : Byte) (comment : List Char) : lineToken (listingLine v comment) = byteDigits v := by
  have hblank : NoBlank (byteDigits v) := fun ch hch => by obtain rfl | rfl := mem_byteDigits hch <;> decide
  have hmarker : ∀ ch ∈ byteDigits v, decide (ch ≠ commentMarker) = true := fun ch hch => by
    obtain rfl | rfl := mem_byteDigits hch <;> decide
  have hbody : (listingLine v comment).takeWhile (fun ch => ch ≠ commentMarker) = byteDigits v ++ [' '] := by
    rw [listingLine, List.append_assoc, List.takeWhile_append_of_pos hmarker]
    rfl
  have hfirst : (byteDigits v ++ [' ']).dropWhile isBlank = byteDigits v ++ [' '] :=
    List.dropWhile_eq_self_iff.mpr fun _ => by
      rw [List.getElem_append_left (by simp [byteDigits]), hblank _ (List.getElem_mem _)]
      decide
  rw [lineToken, lineBody, hbody, hfirst, takeWhile_name hblank]

/-- One more binary digit at the end of a literal. -/
theorem binaryValue_append_digit {token : List Char} {n : Nat} (h : binaryValue token = some n) (b : Bool) :
    binaryValue (token ++ [if b then '1' else '0']) = some (2 * n + b.toNat) := by
  unfold binaryValue at h ⊢
  rw [List.foldl_append, h]
  cases b <;> rfl

/-- The first `n` digits of a byte are worth its upper `n` bits. -/
theorem binaryValue_upper_digits (v : Byte) {n : Nat} (hn : n ≤ 8) :
    binaryValue ((List.range n).map fun k => if v.getLsbD (7 - k) then '1' else '0') = some (v.toNat / 2 ^ (8 - n)) := by
  induction n with
  | zero =>
    have hv : v.toNat / 256 = 0 := Nat.div_eq_of_lt v.isLt
    simp [binaryValue, hv]
  | succ n ih =>
    rw [List.range_succ, List.map_append, List.map_singleton, binaryValue_append_digit (ih (by omega))]
    have hexp : 8 - n = (7 - n) + 1 := by omega
    have hbit : (v.getLsbD (7 - n)).toNat = v.toNat / 2 ^ (7 - n) % 2 := by
      rw [BitVec.getLsbD, Nat.toNat_testBit]
    rw [hbit, hexp, Nat.pow_succ, ← Nat.div_div_eq_div_mul, show 8 - (n + 1) = 7 - n by omega, Nat.div_add_mod]

theorem binaryValue_byteDigits (v : Byte) : binaryValue (byteDigits v) = some v.toNat := by
  have h := binaryValue_upper_digits v (le_refl 8)
  rw [Nat.sub_self, Nat.pow_zero, Nat.div_one] at h
  exact h

theorem parseLine_listingLine (n : Nat) (v : Byte) (comment : List Char) :
    parseLine n (listingLine v comment) = .ok (some v) := by
  obtain ⟨ch, rest, hcons⟩ : ∃ ch rest, byteDigits v = ch :: rest := ⟨_, _, rfl⟩
  have hvalue := binaryValue_byteDigits v
  rw [hcons] at hvalue
  simp [parseLine, lineToken_listingLine, hcons, hvalue, v.isLt]

/-- The lines of a listing give their bytes, whatever the number of the first. -/
theorem parseLines_listing (img : List Byte) (comment : Byte → List Char) (n : Nat) :
    parseLines n (img.map fun v => listingLine v (comment v)) = .ok img := by
  induction img generalizing n with
  | nil => rfl
  | cons v rest ih => simp [parseLines, parseLine_listingLine, ih (n + 1)]

/-- Settles O54: the lines of the listing from number 0 on. -/
theorem listingLoadsBack : Obligations.ListingLoadsBack := by
  unfold Obligations.ListingLoadsBack
  exact fun img comment => parseLines_listing img comment 0

/-! ### Assembly (R312, R313) -/

theorem noBlank_decimalDigits (v : Byte) : NoBlank (decimalDigits v) := fun ch hch => by
  obtain ⟨d, hd, rfl⟩ := mem_decimalDigits hch
  exact isBlank_decimalDigit hd

theorem tightEnds_decimalDigits (v : Byte) : TightEnds (decimalDigits v) :=
  tightEnds_of_noBlank (List.length_pos_iff.mp (decimalDigitsReadBack v).2.1) (noBlank_decimalDigits v)

/-- The decimal text of a byte is an immediate of that value: it is no binary literal, since `b` is no digit. -/
theorem parseImm_decimalDigits (v : Byte) : parseImm (decimalDigits v) = some v := by
  have hvalue := (decimalDigitsReadBack v).1
  unfold parseImm
  split
  · rename_i digits heq
    exact absurd rfl (ne_of_mem_decimalDigits (v := v) (ch := 'b') (by simp [heq]) (by decide))
  · rename_i heq
    exact absurd heq (List.length_pos_iff.mp (decimalDigitsReadBack v).2.1)
  · rename_i ch rest _ heq
    rw [← heq, hvalue]
    simp [v.isLt]

section
variable {a : Byte} (ha : a.toNat < 8)
include ha

theorem parseReg_regName : parseReg (regName a) = some a := by
  have hrange : ∀ d < 8, '0' ≤ decimalDigit d ∧ decimalDigit d ≤ '7' := by decide
  have hvalue := toNat_decimalDigit (Nat.lt_trans ha (by decide))
  simp [parseReg, regName, hrange _ ha, hvalue]

theorem noBlank_regName : NoBlank (regName a) := by
  have hdigit := isBlank_decimalDigit (Nat.lt_trans ha (by decide))
  simpa [NoBlank, regName, hdigit] using (by decide : isBlank 'R' = false)

theorem tightEnds_regName : TightEnds (regName a) :=
  tightEnds_of_noBlank (List.cons_ne_nil _ _) (noBlank_regName ha)

/-- The operands of a line with a register name, a comma, a space and a second operand. -/
theorem splitComma_regName {right : List Char} (hright : TightEnds right) :
    splitComma (regName a ++ (", ".toList ++ right)) = some (regName a, right) := by
  have hcomma : ∀ ch ∈ regName a, decide (ch ≠ ',') = true := by
    simp [regName, decimalDigit_ne (Nat.lt_trans ha (by decide)) (ch := ',') (by decide)]
  have hsep : ", ".toList = [',', ' '] := by decide
  rw [splitComma, hsep, List.dropWhile_append_of_pos hcomma, List.takeWhile_append_of_pos hcomma]
  simp [strip_space_cons, strip_of_tightEnds hright, strip_of_tightEnds (tightEnds_regName ha)]

end

/-- A mnemonic, short or long, is a word without white space. -/
theorem noBlank_of_parseMnemonic {name : List Char} {kind : Kind} (h : parseMnemonic name = some kind) :
    name ≠ [] ∧ NoBlank name := by
  have word : ∀ {text : List Char}, (text ≠ [] ∧ text.all (fun ch => !isBlank ch) = true) → text ≠ [] ∧ NoBlank text :=
    fun ⟨hne, hall⟩ => ⟨hne, fun ch hch => by simpa using List.all_eq_true.mp hall ch hch⟩
  apply word
  unfold parseMnemonic at h
  split_ifs at h with h1 h2 h3 h4
  · obtain rfl | rfl := h1 <;> decide
  · obtain rfl | rfl := h2 <;> decide
  · obtain rfl | rfl := h3 <;> decide
  · obtain rfl | rfl := h4 <;> decide

section
variable {name ops : List Char} {kind : Kind} (hkind : parseMnemonic name = some kind) (hops : TightEnds ops)
include hkind hops

theorem strip_line : strip (name ++ ' ' :: ops) = name ++ ' ' :: ops := by
  obtain ⟨hne, hname⟩ := noBlank_of_parseMnemonic hkind
  exact strip_of_tightEnds (tightEnds_append (tightEnds_of_noBlank hne hname) hops [' '])

/-- A line's name is its mnemonic. -/
theorem parseMnemonic_of_line :
    parseMnemonic ((strip (name ++ ' ' :: ops)).takeWhile fun ch => !isBlank ch) = some kind := by
  rw [strip_line hkind hops, takeWhile_name (noBlank_of_parseMnemonic hkind).2, hkind]

/-- A line's operands are what stands after the name and the space. -/
theorem operands_of_line : strip ((strip (name ++ ' ' :: ops)).dropWhile fun ch => !isBlank ch) = ops := by
  rw [strip_line hkind hops, dropWhile_name (noBlank_of_parseMnemonic hkind).2, strip_space_cons, strip_of_tightEnds hops]

end

theorem parseAsm_ldi {name : List Char} (hkind : parseMnemonic name = some .ldi) {a : Byte} (ha : a.toNat < 8) (b : Byte) :
    parseAsm (name ++ ' ' :: (regName a ++ (", ".toList ++ decimalDigits b))) = some (.ldi a b) := by
  have hops := tightEnds_append (tightEnds_regName ha) (tightEnds_decimalDigits b) ", ".toList
  simp only [parseAsm, parseMnemonic_of_line hkind hops, operands_of_line hkind hops,
    splitComma_regName ha (tightEnds_decimalDigits b), parseReg_regName ha, parseImm_decimalDigits]

theorem parseAsm_mul {name : List Char} (hkind : parseMnemonic name = some .mul) {a b : Byte} (ha : a.toNat < 8)
    (hb : b.toNat < 8) : parseAsm (name ++ ' ' :: (regName a ++ (", ".toList ++ regName b))) = some (.mul a b) := by
  have hops := tightEnds_append (tightEnds_regName ha) (tightEnds_regName hb) ", ".toList
  simp only [parseAsm, parseMnemonic_of_line hkind hops, operands_of_line hkind hops,
    splitComma_regName ha (tightEnds_regName hb), parseReg_regName ha, parseReg_regName hb]

theorem parseAsm_prn {name : List Char} (hkind : parseMnemonic name = some .prn) {a : Byte} (ha : a.toNat < 8) :
    parseAsm (name ++ ' ' :: regName a) = some (.prn a) := by
  have hops := tightEnds_regName ha
  simp only [parseAsm, parseMnemonic_of_line hkind hops, operands_of_line hkind hops, parseReg_regName ha]

/-- The text of an instruction parses to the instruction. -/
theorem parseAsm_of_asmText {i : Instr} {text : List Char} (h : asmText i = some text) : parseAsm text = some i := by
  have split_name : ∀ (name rest : List Char), (name ++ [' ']) ++ rest = name ++ ' ' :: rest := by simp
  cases i with
  | ldi a b =>
    obtain ⟨ha, rfl⟩ : a.toNat < 8 ∧ "LDI ".toList ++ regName a ++ ", ".toList ++ decimalDigits b = text := by
      simpa [asmText, Instr.regsInRange, numRegs] using h
    rw [List.append_assoc, List.append_assoc, show "LDI ".toList = "LDI".toList ++ [' '] by decide, split_name]
    exact parseAsm_ldi (by decide) ha b
  | prn a =>
    obtain ⟨ha, rfl⟩ : a.toNat < 8 ∧ "PRN ".toList ++ regName a = text := by
      simpa [asmText, Instr.regsInRange, numRegs] using h
    rw [show "PRN ".toList = "PRN".toList ++ [' '] by decide, split_name]
    exact parseAsm_prn (by decide) ha
  | mul a b =>
    obtain ⟨⟨ha, hb⟩, rfl⟩ : (a.toNat < 8 ∧ b.toNat < 8) ∧
        "MUL ".toList ++ regName a ++ ", ".toList ++ regName b = text := by
      simpa [asmText, Instr.regsInRange, numRegs] using h
    rw [List.append_assoc, List.append_assoc, show "MUL ".toList = "MUL".toList ++ [' '] by decide, split_name]
    exact parseAsm_mul (by decide) ha hb
  | hlt a =>
    obtain ⟨rfl, rfl⟩ : a = 0 ∧ "HLT".toList = text := by simpa [asmText, Instr.regsInRange] using h
    decide
  | unknown op => simp [asmText] at h

/-- Settles O57: the text parses to the instruction, and a line that parses assembles to its encoding. -/
theorem assemblyRoundTrip : Obligations.AssemblyRoundTrip := by
  unfold Obligations.AssemblyRoundTrip
  intro c i text h
  have hparse := parseAsm_of_asmText h
  exact ⟨hparse, by simp [assembleLine, hparse]⟩

end Sys2Proof.Machine
end
